-- ==== Sys2Proof/Config.lean ====
section
/-! DEFINITION. Config: what one implementation of the core fixes (00_scope.md R5; 93_implementation_defined.md I5 I8).
No free value stands here: the spec leaves no result of an instruction undefined. -/

namespace Sys2Proof

/-- `W`, the width of the registers and of the program counter, in bits (00_scope.md R5; the PC by 92_eei_decisions.md D2).
The spec admits every `W >= 49` and names 64 as its default, which is taken here (DESIGN CHOICE, log 1). -/
abbrev Config.W : Nat := 64

/-- The two readings of Jnz's operand that 93_implementation_defined.md I5 offers a model as the parameter `JNZ_MODE`. -/
inductive JnzMode where
  /-- The source's reading, and the rule (30_encoding.md R64, 42_control.md R125). -/
  | combo
  /-- The reading of the puzzle behind the source (93_implementation_defined.md G2); no rule of the spec. -/
  | literal
deriving DecidableEq, Repr

/-- `JNZ_MODE` at the value the rule gives it: combo (42_control.md R125; 93_implementation_defined.md I5; log 9). -/
abbrev Config.jnzMode : JnzMode := .combo

end Sys2Proof
end

