-- ==== Sys2Proof/Word.lean ====
section
/-! DEFINITION. Word: the two kinds of value the core computes with (00_scope.md R8 R9). -/

namespace Sys2Proof

/-- What a register or the program counter holds: an unsigned value of `W` bits (10_state.md R20 R23). -/
abbrev Word := BitVec Config.W

/-- A program element, an opcode, an operand or an output value: an unsigned value of 3 bits (00_scope.md R8). -/
abbrev Element := BitVec 3

/-- The six-bit view `I` of an instruction (30_encoding.md R61): notation only, storage is two elements. -/
abbrev SixBit := BitVec 6

end Sys2Proof
end

