-- ==== Sys2Proof/Syntax.lean ====
section
/-! DEFINITION. Syntax: the instructions, one constructor for each row of spec/opcode_table.json (30_encoding.md R70). -/

namespace Sys2Proof

/-- The three general registers (10_state.md R20). -/
inductive Reg where
  | a
  | b
  | c
deriving DecidableEq, Repr

/-- A combo operand, decoded: what the 3-bit operand multiplexer selects (30_encoding.md R66). -/
inductive Combo where
  /-- Codes 0 to 3: the literal value 0 to 3. -/
  | lit (v : BitVec 2)
  /-- Codes 4, 5, 6: register A, B, C. -/
  | reg (r : Reg)
  /-- Code 7: reserved, resolved as 0 (30_encoding.md R67). -/
  | reserved
deriving DecidableEq, Repr

/-- The eight opcodes, in the order of the source's table (30_encoding.md R70). -/
inductive Opcode where
  | adv
  | bxl
  | bst
  | jnz
  | bxc
  | out
  | bdv
  | cdv
deriving DecidableEq, Repr

/-- The ways an opcode takes its operand (30_encoding.md R64). -/
inductive OperandMode where
  | literal
  | combo
  | ignored
deriving DecidableEq, Repr

/-- The operand mode of each opcode (30_encoding.md R64). -/
def Opcode.mode : Opcode → OperandMode
  | .adv => .combo
  | .bxl => .literal
  | .bst => .combo
  | .jnz => .combo
  | .bxc => .ignored
  | .out => .combo
  | .bdv => .combo
  | .cdv => .combo

/-- An instruction: an opcode with its operand, in the form its operand mode gives it (30_encoding.md R64 R73).
Bxc keeps the operand it ignores, so that no bit of an encoding is lost (41_bitwise.md R112). -/
inductive Instr where
  /-- `A := A >> combo` (40_shift.md R100). -/
  | adv (x : Combo)
  /-- `B := B XOR literal` (41_bitwise.md R110). -/
  | bxl (x : Element)
  /-- `B := combo mod 8` (41_bitwise.md R111). -/
  | bst (x : Combo)
  /-- if `A != 0`: `pc := combo` (42_control.md R125). -/
  | jnz (x : Combo)
  /-- `B := B XOR C` (41_bitwise.md R112). -/
  | bxc (x : Element)
  /-- append `combo mod 8` to the output (43_output.md R140). -/
  | out (x : Combo)
  /-- `B := A >> combo` (40_shift.md R102). -/
  | bdv (x : Combo)
  /-- `C := A >> combo` (40_shift.md R103). -/
  | cdv (x : Combo)
deriving DecidableEq, Repr

/-- The opcode of an instruction. -/
def Instr.opcode : Instr → Opcode
  | .adv _ => .adv
  | .bxl _ => .bxl
  | .bst _ => .bst
  | .jnz _ => .jnz
  | .bxc _ => .bxc
  | .out _ => .out
  | .bdv _ => .bdv
  | .cdv _ => .cdv

/-- The combo operand of a combo-mode instruction; none for the literal and the ignored mode. -/
def Instr.combo? : Instr → Option Combo
  | .adv x => some x
  | .bxl _ => none
  | .bst x => some x
  | .jnz x => some x
  | .bxc _ => none
  | .out x => some x
  | .bdv x => some x
  | .cdv x => some x

/-- The mnemonics, spelled as the source spells them (30_encoding.md R74). -/
def Opcode.mnemonic : Opcode → String
  | .adv => "Adv"
  | .bxl => "Bxl"
  | .bst => "Bst"
  | .jnz => "Jnz"
  | .bxc => "Bxc"
  | .out => "Out"
  | .bdv => "Bdv"
  | .cdv => "Cdv"

end Sys2Proof
end

