-- ==== Sys2Proof/WellFormed.lean ====
section
/-! DEFINITION. WellFormed: the well-formedness of 70_reset_and_hazards.md R184. It is a premise a claim may take and never
a condition of the step (R184, 92_eei_decisions.md D21; log 26): the core runs every instruction and every program. -/

namespace Sys2Proof

/-- An instruction is well-formed when it does not resolve the reserved combo code 7 (30_encoding.md R67 R72; R184).
Operand 7 of Bxl is the literal 7 and operand 7 of Bxc is ignored; neither is reserved (R67). -/
def Instr.wellFormed (i : Instr) : Bool := i.combo? != some .reserved

/-- A program of even length has no trailing opcode without an operand (R184; 42_control.md R126). -/
def evenLength (p : List Element) : Bool := p.length % 2 == 0

end Sys2Proof
end

