-- ==== Sys2Proof/Decode.lean ====
section
/-! DEFINITION. Decode: from program elements to instructions and back, both written from the tables of 30_encoding.md
(R61 R66 R70 R72 R73); the assembler spelling of R74; and the host's word form of the opcode table. -/

namespace Sys2Proof

/-! ### Operands -/

/-- The operand multiplexer's selection by the raw operand (30_encoding.md R66). -/
def comboOf (x : Element) : Combo :=
  match x.toFin with
  | 0 => .lit 0
  | 1 => .lit 1
  | 2 => .lit 2
  | 3 => .lit 3
  | 4 => .reg .a
  | 5 => .reg .b
  | 6 => .reg .c
  | 7 => .reserved

/-- The raw operand of a combo operand (30_encoding.md R66, read from right to left). -/
def comboCode : Combo → Element
  | .lit v => v.setWidth 3
  | .reg .a => 4
  | .reg .b => 5
  | .reg .c => 6
  | .reserved => 7

/-! ### Opcodes -/

/-- The opcode map (30_encoding.md R70; the numbers are the spec's decision D4, log 8). -/
def opcodeOf (o : Element) : Opcode :=
  match o.toFin with
  | 0 => .adv
  | 1 => .bxl
  | 2 => .bst
  | 3 => .jnz
  | 4 => .bxc
  | 5 => .out
  | 6 => .bdv
  | 7 => .cdv

/-- The opcode map, read from right to left. -/
def opcodeCode : Opcode → Element
  | .adv => 0
  | .bxl => 1
  | .bst => 2
  | .jnz => 3
  | .bxc => 4
  | .out => 5
  | .bdv => 6
  | .cdv => 7

/-! ### Instructions -/

/-- `decode(o, x)` of 30_encoding.md R73: total, since every opcode and every operand is allocated (R62 R72). -/
def decodePair (o x : Element) : Instr :=
  match opcodeOf o with
  | .adv => .adv (comboOf x)
  | .bxl => .bxl x
  | .bst => .bst (comboOf x)
  | .jnz => .jnz (comboOf x)
  | .bxc => .bxc x
  | .out => .out (comboOf x)
  | .bdv => .bdv (comboOf x)
  | .cdv => .cdv (comboOf x)

/-- Why no instruction stands at the head of a list of elements. Both are the halt condition of 42_control.md R121
when the list is what follows the program counter. -/
inductive DecodeError where
  /-- There is no element at all: the program counter is past the end. -/
  | noElement
  /-- There is an opcode and no operand: the trailing opcode of 42_control.md R126. -/
  | trailingOpcode (o : Element)
deriving DecidableEq, Repr

/-- What decoding a list of elements answers: an instruction and the elements after it, or a rejection by name. -/
inductive DecodeResult where
  | instr (i : Instr) (rest : List Element)
  | rejected (e : DecodeError)
deriving DecidableEq, Repr

/-- The decoder consumes two elements, the opcode first (30_encoding.md R60; 20_memory.md R42). -/
def decode : List Element → DecodeResult
  | [] => .rejected .noElement
  | [o] => .rejected (.trailingOpcode o)
  | o :: x :: rest => .instr (decodePair o x) rest

/-- The raw operand of an instruction: element `P[pc+1]` (30_encoding.md R63). -/
def operandCode : Instr → Element
  | .adv x => comboCode x
  | .bxl x => x
  | .bst x => comboCode x
  | .jnz x => comboCode x
  | .bxc x => x
  | .out x => comboCode x
  | .bdv x => comboCode x
  | .cdv x => comboCode x

/-- The two elements of an instruction, in storage order (30_encoding.md R60). -/
def encode (i : Instr) : List Element := [opcodeCode i.opcode, operandCode i]

/-! ### The six-bit view and the opcode table -/

/-- `I = o:x`, the opcode in the high three bits (30_encoding.md R61). -/
def sixBit (o x : Element) : SixBit := o ++ x

/-- The six-bit view of an instruction. -/
def encodeSixBit (i : Instr) : SixBit := sixBit (opcodeCode i.opcode) (operandCode i)

/-- The instruction of a six-bit view: opcode `I[5:3]`, operand `I[2:0]` (30_encoding.md R61). -/
def decodeSixBit (w : SixBit) : Instr := decodePair (w.extractLsb' 3 3) (w.extractLsb' 0 3)

/-- One row of spec/opcode_table.json: the word `w` is the row's when `w AND mask = pattern`. -/
structure OpcodeRow where
  opcode : Opcode
  pattern : SixBit
  mask : SixBit
deriving DecidableEq, Repr

/-- The match and mask values of 40_shift.md, 41_bitwise.md, 42_control.md and 43_output.md
(R100 R110 R111 R125 R112 R140 R102 R103), as spec/opcode_table.json lists them. -/
def opcodeTable : List OpcodeRow :=
  [⟨.adv, 0o00, 0o70⟩, ⟨.bxl, 0o10, 0o70⟩, ⟨.bst, 0o20, 0o70⟩, ⟨.jnz, 0o30, 0o70⟩,
   ⟨.bxc, 0o40, 0o70⟩, ⟨.out, 0o50, 0o70⟩, ⟨.bdv, 0o60, 0o70⟩, ⟨.cdv, 0o70, 0o70⟩]

/-- Whether a word belongs to a row. -/
def OpcodeRow.matches (r : OpcodeRow) (w : SixBit) : Bool := w &&& r.mask == r.pattern

/-! ### The assembler spelling -/

/-- A 3-bit value as a decimal digit (30_encoding.md R74). -/
def digit (x : Element) : String :=
  match x.toFin with
  | 0 => "0"
  | 1 => "1"
  | 2 => "2"
  | 3 => "3"
  | 4 => "4"
  | 5 => "5"
  | 6 => "6"
  | 7 => "7"

/-- `<Mnemonic> <x>` with the raw operand as a decimal digit (30_encoding.md R74; the spec's decision D12). -/
def assembly (i : Instr) : String := i.opcode.mnemonic ++ " " ++ digit (operandCode i)

/-- A program as its comma-separated element list (30_encoding.md R74). -/
def listing : List Element → String
  | [] => ""
  | [x] => digit x
  | x :: y :: rest => digit x ++ "," ++ listing (y :: rest)

/-! ### The host's word form -/

/-- The two elements of the number `w` as spec/opcode_table.json numbers an instruction's bits: the operand in bits
2..0 and the opcode in bits 5..3, of which the low `nbits` bits count (30_encoding.md R61; log 16). -/
def tableElements (nbits w : Nat) : List Element :=
  [BitVec.ofNat 3 (w % 2 ^ nbits / 8), BitVec.ofNat 3 (w % 2 ^ nbits)]

/-- What the decoder reads from the instruction whose bits are `w`. An instruction has six bits of information
(30_encoding.md R60), so a number that needs more is none (log 16). -/
def decodeTableWord (nbits w : Nat) : Option Instr :=
  if w % 2 ^ nbits < 64 then
    match decode (tableElements nbits w) with
    | .instr i _ => some i
    | .rejected _ => none
  else none

end Sys2Proof
end

