-- ==== Sys2Proof/Machine/State.lean ====
section
/-! DEFINITION. State: everything the spec gives the machine (10_state.md R20 R23 R30 R31 R34), and the state right after
reset (70_reset_and_hazards.md R180). -/

namespace Sys2Proof.Machine

/-- The program store `P`, the core's only address space: the element at index `i` is the list's `i`-th, and `N` is its
length (20_memory.md R40; log 4). Equal stores are equal lists: a list of elements has one form only. -/
abbrev Memory := List Element

/-- `N < 2^W`: every index, and every `pc + 2` the core computes, fits the program counter (00_scope.md R6; log 3). -/
def Memory.wf (m : Memory) : Bool := decide (m.length < 2 ^ Config.W)

/-- The architectural state (A, B, C, pc, OUT) with the read-only program store P (10_state.md). -/
structure State where
  /-- Register A (10_state.md R20). -/
  a : Word
  /-- Register B (10_state.md R20). -/
  b : Word
  /-- Register C (10_state.md R20). -/
  c : Word
  /-- The program counter: the index of the opcode element of the next instruction (10_state.md R23). -/
  pc : Word
  /-- The program store P, read-only for the whole run (10_state.md R30; log 4). -/
  prog : Memory
  /-- The output sequence OUT, oldest first (10_state.md R31). -/
  out : List Element
deriving DecidableEq, Repr

/-- Why a step stops with a fault. The type has no constructor: "the core raises no exception, trap or fault of any kind"
(60_exceptions.md R160; log 23). Nobody raises one; safe or unsafe does not arise while no step can end so. -/
inductive Fault where
deriving DecidableEq, Repr

/-- Why an instruction has no meaning. -/
inductive Refusal where
  /-- Raised only by an arm of `exec` whose instruction has no meaning yet, of which there is none. Safe: the model would
  stop where the core goes on. -/
  | notModelled (mnemonic : String)
deriving DecidableEq, Repr

/-- What the host supplies at reset: the program and the three initial register values (70_reset_and_hazards.md R180 R195).
The widths say that the register values are below `2^W` (R183; log 14). -/
structure Launch where
  prog : Memory
  a0 : Word
  b0 : Word
  c0 : Word
deriving DecidableEq, Repr

/-- Reset: the machine state created from a (registers, program) pair (70_reset_and_hazards.md R180; 10_state.md R34).
`pc = 0` is the spec's decision D5 (log 7). -/
def State.boot (l : Launch) : State :=
  { a := l.a0, b := l.b0, c := l.c0, pc := 0, prog := l.prog, out := [] }

/-- The state right after reset with nothing placed by the host: the empty program and zero in A, B and C. The spec gives
these four no value of their own, they are host inputs (10_state.md R34): DESIGN CHOICE, unsafe (log 6). -/
def State.reset : State := State.boot { prog := [], a0 := 0, b0 := 0, c0 := 0 }

end Sys2Proof.Machine
end

