-- ==== Sys2Proof/Machine/Ops.lean ====
section
/-! DEFINITION. Ops: the named operations over the program store, the registers, the program counter and the output.
There is no operation that takes an exception or returns from one: the core has none (60_exceptions.md R160 R164 R165). -/

namespace Sys2Proof.Machine

/-! ### The program store -/

/-- `MemRead(i, 1)`, `P[i]`: none for an index at or beyond `N` (00_scope.md R12; 20_memory.md R40 R46; log 22). -/
def Memory.element? (m : Memory) (i : Nat) : Option Element := m[i]?

/-- The store with the elements `es` at indices `i`, `i + 1`, …; a store too short to reach `i` is filled up with zeros.
No instruction does this (10_state.md R30): it is how the host loads a program (log 16). -/
def Memory.place (m : Memory) (i : Nat) (es : List Element) : Memory :=
  m.take i ++ List.replicate (i - m.length) 0 ++ es ++ m.drop (i + es.length)

/-! ### The registers -/

/-- `x[r]` (00_scope.md R12). -/
def readReg (r : Reg) (s : State) : Word :=
  match r with
  | .a => s.a
  | .b => s.b
  | .c => s.c

/-- `x[r] <- v` (00_scope.md R12). -/
def writeReg (r : Reg) (v : Word) (s : State) : State :=
  match r with
  | .a => { s with a := v }
  | .b => { s with b := v }
  | .c => { s with c := v }

/-! ### The program counter -/

/-- `pc <- pc + 2` (10_state.md R24; 42_control.md R123). -/
def advance (s : State) : State := { s with pc := s.pc + 2 }

/-- `pc <- target`: absolute, with nothing added (10_state.md R24; 42_control.md R125). -/
def jumpTo (target : Word) (s : State) : State := { s with pc := target }

/-! ### The output -/

/-- `OUT <- OUT ++ [v]` (00_scope.md R12; 43_output.md R140). -/
def appendOut (v : Element) (s : State) : State := { s with out := s.out ++ [v] }

/-! ### The arithmetic -/

/-- `v >> s`, the shifter law: `floor(v / 2^s)` for an amount of any size, so 0 from `W` on; the amount is never reduced
modulo `W` (40_shift.md R101; 93_implementation_defined.md I3). -/
def shiftRight (v : Word) (s : Nat) : Word := v >>> s

/-- `v mod 8 = v[2:0]` (00_scope.md R11). -/
def low3 (v : Word) : Element := v.extractLsb' 0 3

/-- `zext_W(x)` (00_scope.md R10). -/
def zext (x : Element) : Word := x.setWidth Config.W

/-! ### Fetching, and the halt -/

/-- The halt condition `pc + 1 >= N`, computed without wrapping (42_control.md R121; 10_state.md R33). -/
def halted (s : State) : Bool := decide (s.prog.length ≤ s.pc.toNat + 1)

/-- The elements from the program counter on: what the fetch reads its pair from, with no alignment check
(42_control.md R122; 10_state.md R26; log 10). -/
def fetchElements (s : State) : List Element := s.prog.drop s.pc.toNat

/-- The instruction the next step executes; none where the step halts (42_control.md R120 R121). -/
def currentInstr (s : State) : Option Instr :=
  match decode (fetchElements s) with
  | .instr i _ => some i
  | .rejected _ => none

/-- What a halting step answers: the same state, nothing written, nothing raised (42_control.md R121; 10_state.md R24(a);
60_exceptions.md R172; log 5). -/
def haltStep (s : State) : Host.Outcome State Fault Refusal := .next s

/-- The trace record `(pc, opcode, operand)`, the operand raw (10_state.md R32; 60_exceptions.md R171; log 12). -/
structure TraceRecord where
  pc : Word
  opcode : Element
  operand : Element
deriving DecidableEq, Repr

/-- The result of the step that starts at `s`: the source's `Option<ExecutedInstruction>`, none for a halting step. It is
an output of the step and no state (10_state.md R32; 42_control.md R120; log 12). -/
def traceOf (s : State) : Option TraceRecord :=
  match fetchElements s with
  | o :: x :: _ => some { pc := s.pc, opcode := o, operand := x }
  | _ => none

end Sys2Proof.Machine
end

