-- ==== Sys2Proof/Machine/Operands.lean ====
section
/-! DEFINITION. Operands: the values of the two operand modes that are read, combo and literal (30_encoding.md R64 R65 R66). -/

namespace Sys2Proof.Machine

/-- `combo(x)`, the operand multiplexer, on the state at the start of the step (30_encoding.md R66; 10_state.md R27).
The reserved code is 0, and nothing records that it was met (R67; 92_eei_decisions.md D19). -/
def comboValue (x : Combo) (s : State) : Word :=
  match x with
  | .lit v => v.setWidth Config.W
  | .reg r => readReg r s
  | .reserved => 0

/-- The value of a literal operand (30_encoding.md R65). -/
def literalValue (x : Element) : Word := zext x

/-- Jnz's target under the two readings of its operand mode. The rule is the combo reading (42_control.md R125); the
literal one is the parameter 93_implementation_defined.md I5 offers (log 9). -/
def jnzTarget (mode : JnzMode) (x : Combo) (s : State) : Word :=
  match mode with
  | .combo => comboValue x s
  | .literal => literalValue (comboCode x)

end Sys2Proof.Machine
end

