-- ==== Sys2Proof/Machine/Flags.lean ====
section
/-! DEFINITION. Flags: the core has no flags, condition codes or predicates (10_state.md R28). Its one condition is the
test Jnz makes on register A directly. -/

namespace Sys2Proof.Machine

/-- `x[A] != 0` (10_state.md R28; 42_control.md R125): it reads A only. -/
def jnzTaken (s : State) : Bool := readReg .a s != 0

end Sys2Proof.Machine
end

