-- ==== Sys2Proof/Machine/Bitwise.lean ====
section
/-! DEFINITION. Bitwise: Bxl, Bst and Bxc (41_bitwise.md). -/

namespace Sys2Proof.Machine

/-- Bxl: `B := B XOR literal` (41_bitwise.md R110). -/
def execBxl (x : Element) (s : State) : Host.Outcome State Fault Refusal :=
  .next (advance (writeReg .b (readReg .b s ^^^ literalValue x) s))

/-- Bst: `B := combo mod 8` (41_bitwise.md R111). -/
def execBst (x : Combo) (s : State) : Host.Outcome State Fault Refusal :=
  .next (advance (writeReg .b (zext (low3 (comboValue x s))) s))

/-- Bxc: `B := B XOR C`; the operand is present and read by no part of the effect (41_bitwise.md R112). -/
def execBxc (_x : Element) (s : State) : Host.Outcome State Fault Refusal :=
  .next (advance (writeReg .b (readReg .b s ^^^ readReg .c s) s))

end Sys2Proof.Machine
end

