-- ==== Sys2Proof/Machine/Control.lean ====
section
/-! DEFINITION. Control: Jnz (42_control.md R125). -/

namespace Sys2Proof.Machine

/-- Jnz's effect under a reading of its operand mode (42_control.md R125; 93_implementation_defined.md I5; log 9). -/
def jnzWith (mode : JnzMode) (x : Combo) (s : State) : State :=
  if jnzTaken s then jumpTo (jnzTarget mode x s) s else advance s

/-- Jnz: with A not zero jump to the operand's value, else advance (42_control.md R125). -/
def execJnz (x : Combo) (s : State) : Host.Outcome State Fault Refusal := .next (jnzWith Config.jnzMode x s)

end Sys2Proof.Machine
end

