-- ==== Sys2Proof/Machine/Output.lean ====
section
/-! DEFINITION. Output: Out (43_output.md R140). -/

namespace Sys2Proof.Machine

/-- Out: append `combo mod 8` to the output (43_output.md R140). The sequence has no capacity limit and Out never stalls
(43_output.md R141, the spec's decision D11; log 13). -/
def execOut (x : Combo) (s : State) : Host.Outcome State Fault Refusal :=
  .next (advance (appendOut (low3 (comboValue x s)) s))

end Sys2Proof.Machine
end

