-- ==== Sys2Proof/Machine/Shift.lean ====
section
/-! DEFINITION. Shift: Adv, Bdv and Cdv (40_shift.md). -/

namespace Sys2Proof.Machine

/-- The effect the three share: shift the old A right by the combo operand into `dst` (40_shift.md R101; 10_state.md R27,
log 11), and advance. -/
def shiftInto (dst : Reg) (x : Combo) (s : State) : State :=
  advance (writeReg dst (shiftRight (readReg .a s) (comboValue x s).toNat) s)

/-- Adv: `A := A >> combo` (40_shift.md R100). -/
def execAdv (x : Combo) (s : State) : Host.Outcome State Fault Refusal := .next (shiftInto .a x s)

/-- Bdv: `B := A >> combo` (40_shift.md R102; with amount 0 it copies A, 90_conflicts.md C1). -/
def execBdv (x : Combo) (s : State) : Host.Outcome State Fault Refusal := .next (shiftInto .b x s)

/-- Cdv: `C := A >> combo` (40_shift.md R103; with amount 0 it copies A, 90_conflicts.md C1). -/
def execCdv (x : Combo) (s : State) : Host.Outcome State Fault Refusal := .next (shiftInto .c x s)

end Sys2Proof.Machine
end

