-- ==== Sys2Proof/Machine/Step.lean ====
section
/-! DEFINITION. Step: one step of the core (42_control.md R120), and placing an instruction where the next step fetches it. -/

namespace Sys2Proof.Machine

/-- One step: halt, or execute the instruction at the program counter (42_control.md R120 R121). The halting step answers
the same state (log 5); what tells the two apart is `halted`, and `traceOf`, which is the source's result of the step. -/
def step (s : State) : Host.Outcome State Fault Refusal :=
  match currentInstr s with
  | none => haltStep s
  | some i => exec i s

/-- `s` with the instruction whose bits are `w`, numbered as spec/opcode_table.json numbers them, stored as the two elements
at the program counter (30_encoding.md R61; log 16). It stands for the host's load of a program (log 6). -/
def State.withFetchWord (s : State) (nbits w : Nat) : State :=
  { s with prog := Memory.place s.prog s.pc.toNat (tableElements nbits w) }

end Sys2Proof.Machine
end

