-- ==== Sys2Proof/Machine/HostInterface.lean ====
section
/-! DEFINITION. HostInterface: what the host does to a core and sees of it (70_reset_and_hazards.md R180 R181 R182 R183 R195
R196; 43_output.md R141; 60_exceptions.md R170 R171). The names and the grouping are the spec's own (D10; log 17). -/

namespace Sys2Proof.Machine

/-! ### The inputs -/

/-- `prog_len`, the input that carries `N` (70_reset_and_hazards.md R195). -/
def Launch.progLen (l : Launch) : Word := BitVec.ofNat Config.W l.prog.length

/-- The launch the host presents with plain unsigned integers; none where an element is no 3-bit value, the program is too
long or a register value does not fit `W` bits: no such launch exists (R182 R183; 00_scope.md R6; log 14). -/
def launch? (prog : List Nat) (a0 b0 c0 : Nat) : Option Launch :=
  if prog.all (· < 8) && decide (prog.length < 2 ^ Config.W) && decide (a0 < 2 ^ Config.W)
      && decide (b0 < 2 ^ Config.W) && decide (c0 < 2 ^ Config.W) then
    some { prog := prog.map (BitVec.ofNat 3), a0 := BitVec.ofNat Config.W a0, b0 := BitVec.ofNat Config.W b0,
           c0 := BitVec.ofNat Config.W c0 }
  else none

/-! ### Stepping -/

/-- The state after one step. No step ends otherwise than in a next state (60_exceptions.md R160), so the refusal's branch,
which the type asks for, is never taken. -/
def stepOnce (s : State) : State :=
  match step s with
  | .next t => t
  | .fault f => nomatch f
  | .refused _ => s

/-- The state after `k` steps, halting steps counted too: they change nothing (10_state.md R33). -/
def stepN : Nat → State → State
  | 0, s => s
  | k + 1, s => stepN k (stepOnce s)

/-! ### The outputs -/

/-- `out_data` where `out_valid` is asserted: the value the step that starts at `s` appends, none unless it executes Out
(70_reset_and_hazards.md R195). -/
def outData (s : State) : Option Element :=
  match currentInstr s with
  | some (.out x) => some (low3 (comboValue x s))
  | _ => none

/-- The outputs of the core for the step that starts at `s`: `out_valid` and `trace_valid` are the presence of a value
(70_reset_and_hazards.md R195; log 17). -/
structure Outputs where
  outData : Option Element
  halted : Bool
  trace : Option TraceRecord
  a : Word
  b : Word
  c : Word
  pc : Word
deriving DecidableEq, Repr

/-- The outputs of R195. -/
def outputsOf (s : State) : Outputs :=
  { outData := outData s, halted := halted s, trace := traceOf s, a := s.a, b := s.b, c := s.c, pc := s.pc }

/-- The values `out_data` carries over the first `k` steps from `s`, in order (43_output.md R141). -/
def emitted : Nat → State → List Element
  | 0, _ => []
  | k + 1, s => (outData s).toList ++ emitted k (stepOnce s)

/-- The trace records of the first `k` steps from `s`, in order (60_exceptions.md R171; 42_control.md R129). -/
def traces : Nat → State → List TraceRecord
  | 0, _ => []
  | k + 1, s => (traceOf s).toList ++ traces k (stepOnce s)

/-! ### The host's events -/

/-- What the host may do at a step boundary: apply reset or perform a step (70_reset_and_hazards.md R181 R195 R196). -/
inductive HostEvent where
  | reset (l : Launch)
  | step
deriving DecidableEq, Repr

/-- The state after an event. A reset discards the whole previous state, the output included (R181; log 15). -/
def hostEvent (e : HostEvent) (s : State) : State :=
  match e with
  | .reset l => State.boot l
  | .step => stepOnce s

/-- The state after a sequence of events, the first of the list first. -/
def hostEvents (es : List HostEvent) (s : State) : State := es.foldl (fun t e => hostEvent e t) s

/-- What a host sees of a run it bounds: the run's end, or the state it stopped at, which is no end of the run
(42_control.md R127 R128). -/
inductive HostRun where
  | ended (s : State)
  | stopped (s : State)
deriving DecidableEq, Repr

/-- A run under the host's own `STEP_CEILING` (00_scope.md R7; 42_control.md R124 R127). The core itself has no ceiling
(log 21). -/
def hostRun : Nat → State → HostRun
  | 0, s => if halted s then .ended s else .stopped s
  | ceiling + 1, s => if halted s then .ended s else hostRun ceiling (stepOnce s)

/-! ### Several cores -/

/-- Several cores side by side (60_exceptions.md R170; log 20). -/
abbrev Bank := List State

/-- Cores that share one program, each with its own initial registers (60_exceptions.md R170; 20_memory.md R50). -/
def Bank.launch (prog : Memory) (inits : List (Word × Word × Word)) : Bank :=
  inits.map fun r => State.boot { prog := prog, a0 := r.1, b0 := r.2.1, c0 := r.2.2 }

/-- An event at core number `j`; an event at a number no core has does nothing. -/
def Bank.event (j : Nat) (e : HostEvent) (b : Bank) : Bank := b.modify j (hostEvent e)

/-- A schedule of events, in the order in which the host plays them. -/
def Bank.run (sched : List (Nat × HostEvent)) (b : Bank) : Bank := sched.foldl (fun b e => Bank.event e.1 e.2 b) b

/-- The events of a schedule that are meant for core number `j`. -/
def eventsFor (j : Nat) (sched : List (Nat × HostEvent)) : List HostEvent :=
  sched.filterMap fun e => if e.1 = j then some e.2 else none

end Sys2Proof.Machine
end

