-- ==== Sys2Proof/Machine/ProgramStep.lean ====
section
/-! DEFINITION. ProgramStep: the step with the program store as its parameter and not as state (20_memory.md R49), over the
architectural state (A, B, C, pc, OUT) of 10_state.md. The store is read by the fetch and by nothing else (20_memory.md R40).
`State` joins the two because the host's interface hands a step one state (log 4). -/

namespace Sys2Proof.Machine

/-- The complete architectural state: the tuple (A, B, C, pc, OUT), without the program (10_state.md, opening words). -/
structure ArchState where
  /-- Register A (10_state.md R20). -/
  a : Word
  /-- Register B (10_state.md R20). -/
  b : Word
  /-- Register C (10_state.md R20). -/
  c : Word
  /-- The program counter (10_state.md R23). -/
  pc : Word
  /-- The output sequence OUT, oldest first (10_state.md R31). -/
  out : List Element
deriving DecidableEq, Repr

/-- The architectural state of a state, its program left out. -/
def archOf (s : State) : ArchState := { a := s.a, b := s.b, c := s.c, pc := s.pc, out := s.out }

/-- An architectural state together with the program it runs. -/
def withProgram (p : Memory) (x : ArchState) : State :=
  { a := x.a, b := x.b, c := x.c, pc := x.pc, prog := p, out := x.out }

/-- An instruction's effect on the architectural state. It is given the empty store: no instruction reaches the program
(20_memory.md R40 R41). -/
def execArch (i : Instr) (x : ArchState) : Host.Outcome ArchState Fault Refusal :=
  match exec i (withProgram [] x) with
  | .next t => .next (archOf t)
  | .fault f => .fault f
  | .refused r => .refused r

/-- `step(P, state)`: the program is the step's parameter, and only the fetch reads it (20_memory.md R49; 42_control.md R120). -/
def stepOf (p : Memory) (x : ArchState) : Host.Outcome ArchState Fault Refusal :=
  match currentInstr (withProgram p x) with
  | none => .next x
  | some i => execArch i x

/-- The architectural state after `k` steps on one program, which is the same for the whole run (20_memory.md R49). -/
def runOf (p : Memory) : Nat → ArchState → Host.Outcome ArchState Fault Refusal
  | 0, x => .next x
  | k + 1, x =>
    match stepOf p x with
    | .next y => runOf p k y
    | .fault f => .fault f
    | .refused r => .refused r

end Sys2Proof.Machine
end

