-- ==== Sys2Proof/Machine/NatCore.lean ====
section
/-! DEFINITION. NatCore: the core a second time, over unbounded natural numbers and straight from the raw elements, the way
10_state.md R22 allows: "a model that keeps the registers as unbounded natural numbers computes exactly the values of the
W-bit hardware". It has no width, so it is the core of every `W` at once; the claims compare the machine with it. -/

namespace Sys2Proof.Machine

/-- The state (A, B, C, pc, OUT) and the program, with no width (10_state.md R22). -/
structure NatCore where
  a : Nat
  b : Nat
  c : Nat
  pc : Nat
  prog : Memory
  out : List Element
deriving DecidableEq, Repr

/-- `combo(x)` by the raw operand (30_encoding.md R66 R67). -/
def NatCore.combo (x : Element) (n : NatCore) : Nat :=
  if x.toNat ≤ 3 then x.toNat
  else if x.toNat = 4 then n.a
  else if x.toNat = 5 then n.b
  else if x.toNat = 6 then n.c
  else 0

/-- The effect of opcode `o` with operand `x` (30_encoding.md R70, with the rules it names). -/
def NatCore.effect (o x : Element) (n : NatCore) : NatCore :=
  match o.toNat with
  | 0 => { n with a := n.a / 2 ^ n.combo x, pc := n.pc + 2 }
  | 1 => { n with b := n.b ^^^ x.toNat, pc := n.pc + 2 }
  | 2 => { n with b := n.combo x % 8, pc := n.pc + 2 }
  | 3 => if n.a ≠ 0 then { n with pc := n.combo x } else { n with pc := n.pc + 2 }
  | 4 => { n with b := n.b ^^^ n.c, pc := n.pc + 2 }
  | 5 => { n with out := n.out ++ [BitVec.ofNat 3 (n.combo x)], pc := n.pc + 2 }
  | 6 => { n with b := n.a / 2 ^ n.combo x, pc := n.pc + 2 }
  | _ => { n with c := n.a / 2 ^ n.combo x, pc := n.pc + 2 }

/-- One step: with no complete pair at `pc` nothing changes (42_control.md R120 R121). -/
def NatCore.step (n : NatCore) : NatCore :=
  match n.prog[n.pc]?, n.prog[n.pc + 1]? with
  | some o, some x => n.effect o x
  | _, _ => n

/-- `k` steps. -/
def NatCore.stepN : Nat → NatCore → NatCore
  | 0, n => n
  | k + 1, n => NatCore.stepN k n.step

/-- The state read as natural numbers. -/
def natCoreOf (s : State) : NatCore :=
  { a := s.a.toNat, b := s.b.toNat, c := s.c.toNat, pc := s.pc.toNat, prog := s.prog, out := s.out }

/-- Every register and the program counter holds a value below `2^w`, and so does the program's length (10_state.md R22;
00_scope.md R6). -/
def NatCore.InRange (w : Nat) (n : NatCore) : Prop :=
  n.a < 2 ^ w ∧ n.b < 2 ^ w ∧ n.c < 2 ^ w ∧ n.pc < 2 ^ w ∧ n.prog.length < 2 ^ w

end Sys2Proof.Machine
end

