-- ==== Sys2Proof/Safety.lean ====
section
/-! DEFINITION. Safety: the runs of a core and the terms in which claims speak of them (42_control.md R121 R124 R127 R128;
70_reset_and_hazards.md R184; 10_state.md R21). -/

namespace Sys2Proof.Machine

/-- The invariant of every state the spec admits: `N < 2^W` (00_scope.md R6; log 3). -/
def StoreInv (s : State) : Prop := Memory.wf s.prog = true

/-- Every number of steps ends in a next state: no fault, no refusal (60_exceptions.md R160). -/
def SafeRun (s : State) : Prop := ∀ k, ∃ t, Sys2Proof.core.run k s = .next t

/-- The run from `s` ends in `t`, after `k` steps that execute an instruction (42_control.md R124 R128). -/
def EndsAfter (k : Nat) (s t : State) : Prop :=
  (∀ j, j < k → halted (stepN j s) = false) ∧ halted (stepN k s) = true ∧ stepN k s = t

/-- The run from `s` has no end (42_control.md R127). -/
def NeverEnds (s : State) : Prop := ∀ k, halted (stepN k s) = false

/-- A well-formed program on its execution path (70_reset_and_hazards.md R184): even length, and no instruction the run
executes resolves the reserved code. A premise for claims, no condition of the step (log 26). -/
def WellFormedRun (s : State) : Prop :=
  evenLength s.prog = true ∧ ∀ k i, currentInstr (stepN k s) = some i → i.wellFormed = true

/-- The registers an instruction writes (10_state.md R21). -/
def writes (i : Instr) (r : Reg) : Bool :=
  match i with
  | .adv _ => r == .a
  | .bxl _ => r == .b
  | .bst _ => r == .b
  | .jnz _ => false
  | .bxc _ => r == .b
  | .out _ => false
  | .bdv _ => r == .b
  | .cdv _ => r == .c

/-- The registers an instruction reads: by its opcode, or by a combo operand of code 4, 5 or 6 (10_state.md R21). -/
def reads (i : Instr) (r : Reg) : Bool :=
  (match i with
   | .adv _ => r == .a
   | .bxl _ => r == .b
   | .bst _ => false
   | .jnz _ => r == .a
   | .bxc _ => r == .b || r == .c
   | .out _ => false
   | .bdv _ => r == .a
   | .cdv _ => r == .a)
  || i.combo? == some (.reg r)

/-- A program that jumps only to even indices wherever a fetch at an even index can find a jump: even length, and every
Jnz at an even index has the literal target 0 or 2 (70_reset_and_hazards.md R184; 92_eei_decisions.md D6). -/
def evenTargets : List Element → Bool
  | [] => true
  | [_] => false
  | o :: x :: rest =>
    (match decodePair o x with
     | .jnz y => y == .lit 0 || y == .lit 2
     | _ => true) && evenTargets rest

/-- The program counter is even, in a program that jumps to even indices only. -/
def EvenInv (s : State) : Prop :=
  Memory.wf s.prog = true ∧ evenTargets s.prog = true ∧ s.pc.toNat % 2 = 0

end Sys2Proof.Machine
end

