-- ==== Sys2Proof/Certificates/Slice0/Obligations.lean ====
section
/-! DEFINITION. Obligations: the statements for the provers. Each docstring names the rule of spec/ it formalises, and says
where a clause is the spec's own decision or inference, or the model's choice. -/

open Sys2Proof Sys2Proof.Machine

/-! ### The instructions: result, completion and frame -/

/-- 40_shift.md R100 whole: Adv's encoding, its result for every combo operand, its corner cases, and that B, C, the output
and the program are unchanged. That `Adv 4` writes 0 is the rule's own inference from R101; the opcode number is the
spec's decision D4. -/
def Obligations.AdvShiftsAByCombo : Prop :=
  ∀ (x : Combo) (s : State),
    encode (.adv x) = [0, comboCode x] ∧ encodeSixBit (.adv x) &&& 0o70 = 0o00 ∧
    ∃ t, exec (.adv x) s = .next t ∧
      t.a.toNat = s.a.toNat / 2 ^ (comboValue x s).toNat ∧
      (x = .lit 0 ∨ x = .reserved → t.a = s.a) ∧
      (x = .reg .a → t.a = 0) ∧
      (Config.W ≤ (comboValue x s).toNat → t.a = 0) ∧
      t.pc = s.pc + 2 ∧ t.b = s.b ∧ t.c = s.c ∧ t.out = s.out ∧ t.prog = s.prog

/-- 40_shift.md R102 whole: Bdv's encoding, its result for every combo operand, its corner cases (amount 0 copies A, and the
old B matters through operand 5 only), and its frame. The opcode number is the spec's decision D4. -/
def Obligations.BdvShiftsAIntoB : Prop :=
  ∀ (x : Combo) (s : State),
    encode (.bdv x) = [6, comboCode x] ∧ encodeSixBit (.bdv x) &&& 0o70 = 0o60 ∧
    ∃ t, exec (.bdv x) s = .next t ∧
      t.b.toNat = s.a.toNat / 2 ^ (comboValue x s).toNat ∧
      (x = .lit 0 ∨ x = .reserved → t.b = s.a) ∧
      (x = .reg .b → t.b.toNat = s.a.toNat / 2 ^ s.b.toNat) ∧
      (x = .reg .a → t.b = 0) ∧
      (Config.W ≤ (comboValue x s).toNat → t.b = 0) ∧
      (x ≠ .reg .b → ∀ v, ∃ u, exec (.bdv x) { s with b := v } = .next u ∧ u.b = t.b) ∧
      t.pc = s.pc + 2 ∧ t.a = s.a ∧ t.c = s.c ∧ t.out = s.out ∧ t.prog = s.prog

/-- 40_shift.md R103 whole: Cdv's encoding, its result for every combo operand, its corner cases (amount 0 copies A), and its
frame. The opcode number is the spec's decision D4. -/
def Obligations.CdvShiftsAIntoC : Prop :=
  ∀ (x : Combo) (s : State),
    encode (.cdv x) = [7, comboCode x] ∧ encodeSixBit (.cdv x) &&& 0o70 = 0o70 ∧
    ∃ t, exec (.cdv x) s = .next t ∧
      t.c.toNat = s.a.toNat / 2 ^ (comboValue x s).toNat ∧
      (x = .lit 0 ∨ x = .reserved → t.c = s.a) ∧
      (x = .reg .c → t.c.toNat = s.a.toNat / 2 ^ s.c.toNat) ∧
      (x = .reg .a → t.c = 0) ∧
      (Config.W ≤ (comboValue x s).toNat → t.c = 0) ∧
      t.pc = s.pc + 2 ∧ t.a = s.a ∧ t.b = s.b ∧ t.out = s.out ∧ t.prog = s.prog

/-- 40_shift.md R101 whole: the shifter law for every value and every amount, and that Adv, Bdv and Cdv share it. -/
def Obligations.ShifterYieldsFloorQuotient : Prop :=
  (∀ (v : Word) (n : Nat),
    (shiftRight v n).toNat = v.toNat / 2 ^ n ∧
    shiftRight v 0 = v ∧
    (v.toNat < 2 ^ n → shiftRight v n = 0) ∧
    (Config.W ≤ n → shiftRight v n = 0) ∧
    (shiftRight v n).toNat ≤ v.toNat) ∧
  ∀ (x : Combo) (s : State), ∃ t u w,
    exec (.adv x) s = .next t ∧ t.a = shiftRight s.a (comboValue x s).toNat ∧
    exec (.bdv x) s = .next u ∧ u.b = shiftRight s.a (comboValue x s).toNat ∧
    exec (.cdv x) s = .next w ∧ w.c = shiftRight s.a (comboValue x s).toNat

/-- 41_bitwise.md R110 whole: Bxl's encoding, its result for every literal, its corner cases and its frame. That twice the
same literal restores B is the rule's own inference; the opcode number is the spec's decision D4. -/
def Obligations.BxlXorsLiteralIntoB : Prop :=
  ∀ (x : Element) (s : State),
    encode (.bxl x) = [1, x] ∧ encodeSixBit (.bxl x) &&& 0o70 = 0o10 ∧
    ∃ t, exec (.bxl x) s = .next t ∧
      t.b.toNat = s.b.toNat ^^^ x.toNat ∧
      (∀ k, 3 ≤ k → t.b.getLsbD k = s.b.getLsbD k) ∧
      (x = 0 → t.b = s.b) ∧
      (x = 7 → low3 t.b = ~~~ low3 s.b) ∧
      (∃ u, exec (.bxl x) t = .next u ∧ u.b = s.b) ∧
      t.pc = s.pc + 2 ∧ t.a = s.a ∧ t.c = s.c ∧ t.out = s.out ∧ t.prog = s.prog

/-- 41_bitwise.md R111 whole: Bst's encoding, its result for every combo operand, its corner cases and its frame. The opcode
number is the spec's decision D4. -/
def Obligations.BstPutsComboModEightInB : Prop :=
  ∀ (x : Combo) (s : State),
    encode (.bst x) = [2, comboCode x] ∧ encodeSixBit (.bst x) &&& 0o70 = 0o20 ∧
    ∃ t, exec (.bst x) s = .next t ∧
      t.b.toNat = (comboValue x s).toNat % 8 ∧
      t.b.toNat < 8 ∧
      (∀ v, x = .lit v → t.b.toNat = v.toNat) ∧
      (∀ r, x = .reg r → t.b.toNat = (readReg r s).toNat % 8) ∧
      (x = .reserved → t.b = 0) ∧
      t.pc = s.pc + 2 ∧ t.a = s.a ∧ t.c = s.c ∧ t.out = s.out ∧ t.prog = s.prog

/-- 41_bitwise.md R112 whole: Bxc's encoding, its result, which no operand value changes, its corner cases, the involution
and its frame. The opcode number is the spec's decision D4. -/
def Obligations.BxcXorsCIntoBWhateverOperand : Prop :=
  ∀ (x y : Element) (s : State),
    encode (.bxc x) = [4, x] ∧ encodeSixBit (.bxc x) &&& 0o70 = 0o40 ∧
    ∃ t, exec (.bxc x) s = .next t ∧ exec (.bxc y) s = .next t ∧
      t.b.toNat = s.b.toNat ^^^ s.c.toNat ∧
      (s.c = 0 → t.b = s.b) ∧
      (s.b = s.c → t.b = 0) ∧
      (∃ u, exec (.bxc y) t = .next u ∧ u.b = s.b) ∧
      t.pc = s.pc + 2 ∧ t.a = s.a ∧ t.c = s.c ∧ t.out = s.out ∧ t.prog = s.prog

/-- 42_control.md R125 whole: Jnz's encoding, where it goes for every combo operand with A zero and not zero, that it writes no
register, that it tests A only, and what follows a taken jump: to its own index it changes nothing, at or beyond
`N - 1` the next step halts, and to any index with a pair, odd ones too (the spec's decision D6), that pair is executed. The
opcode number is the spec's decision D4. -/
def Obligations.JnzJumpsToComboWhenANotZero : Prop :=
  ∀ (x : Combo) (s : State),
    encode (.jnz x) = [3, comboCode x] ∧ encodeSixBit (.jnz x) &&& 0o70 = 0o30 ∧
    ∃ t, exec (.jnz x) s = .next t ∧
      (s.a ≠ 0 → t.pc = comboValue x s) ∧
      (s.a = 0 → t.pc = s.pc + 2) ∧
      (s.a ≠ 0 → x = .reg .a → t.pc = s.a) ∧
      (s.a ≠ 0 → x = .reserved → t.pc = 0) ∧
      (s.a ≠ 0 → comboValue x s = s.pc → t = s) ∧
      (t.prog.length ≤ t.pc.toNat + 1 → halted t = true ∧ step t = .next t) ∧
      (∀ o y, Memory.element? t.prog t.pc.toNat = some o → Memory.element? t.prog (t.pc.toNat + 1) = some y →
        step t = exec (decodePair o y) t) ∧
      t.a = s.a ∧ t.b = s.b ∧ t.c = s.c ∧ t.out = s.out ∧ t.prog = s.prog

/-- 43_output.md R140 whole: Out's encoding, the one value it appends for every combo operand, its frame, and that later steps
differ from those of a core that only advanced in nothing but the output. -/
def Obligations.OutAppendsComboModEight : Prop :=
  ∀ (x : Combo) (s : State),
    encode (.out x) = [5, comboCode x] ∧ encodeSixBit (.out x) &&& 0o70 = 0o50 ∧
    ∃ (t : State) (v : Element), exec (.out x) s = .next t ∧
      t.out = s.out ++ [v] ∧
      v.toNat = (comboValue x s).toNat % 8 ∧
      (∀ n, x = .lit n → v.toNat = n.toNat) ∧
      (∀ r, x = .reg r → v.toNat = (readReg r s).toNat % 8) ∧
      (x = .reserved → v = 0) ∧
      t.pc = s.pc + 2 ∧ t.a = s.a ∧ t.b = s.b ∧ t.c = s.c ∧ t.prog = s.prog ∧
      ∀ k, { stepN k t with out := [] } = { stepN k { s with pc := s.pc + 2 } with out := [] }

/-! ### Operands and encodings -/

/-- 30_encoding.md R66 whole: the operand multiplexer's table. -/
def Obligations.ComboMultiplexerTable : Prop :=
  ∀ s : State,
    comboValue (comboOf 0) s = 0 ∧ comboValue (comboOf 1) s = 1 ∧ comboValue (comboOf 2) s = 2 ∧
    comboValue (comboOf 3) s = 3 ∧ comboValue (comboOf 4) s = s.a ∧ comboValue (comboOf 5) s = s.b ∧
    comboValue (comboOf 6) s = s.c ∧ comboValue (comboOf 7) s = 0

/-- 30_encoding.md R67: the reserved code acts as the literal 0 under every combo-mode opcode, the step completes, and the
state it leaves records nothing of it (the spec's decision D19); under Bxl 7 is the literal 7, under Bxc it is ignored. -/
def Obligations.ReservedComboActsAsZero : Prop :=
  ∀ s : State,
    (∃ t, exec (.adv .reserved) s = .next t ∧ exec (.adv (.lit 0)) s = .next t) ∧
    (∃ t, exec (.bst .reserved) s = .next t ∧ exec (.bst (.lit 0)) s = .next t) ∧
    (∃ t, exec (.jnz .reserved) s = .next t ∧ exec (.jnz (.lit 0)) s = .next t) ∧
    (∃ t, exec (.out .reserved) s = .next t ∧ exec (.out (.lit 0)) s = .next t) ∧
    (∃ t, exec (.bdv .reserved) s = .next t ∧ exec (.bdv (.lit 0)) s = .next t) ∧
    (∃ t, exec (.cdv .reserved) s = .next t ∧ exec (.cdv (.lit 0)) s = .next t) ∧
    (∃ t, exec (.bxl 7) s = .next t ∧ t.b.toNat = s.b.toNat ^^^ 7) ∧
    (∃ t, exec (.bxc 7) s = .next t ∧ exec (.bxc 0) s = .next t)

/-- 30_encoding.md R72 whole: every six-bit word belongs to exactly one row of the opcode table and decodes to that row's
opcode with the word's operand; the reserved encodings are the six listed, and they complete as with operand 0; the eight
Bxc encodings behave identically. -/
def Obligations.EverySixBitWordDecodesOnce : Prop :=
  (∀ w : SixBit,
    ((opcodeTable.filter fun r => r.matches w).map fun r => r.opcode) = [(decodeSixBit w).opcode] ∧
    operandCode (decodeSixBit w) = w.extractLsb' 0 3 ∧
    ((decodeSixBit w).wellFormed = false ↔ w ∈ ([0o07, 0o27, 0o37, 0o57, 0o67, 0o77] : List SixBit))) ∧
  (∀ w ∈ ([0o07, 0o27, 0o37, 0o57, 0o67, 0o77] : List SixBit), ∀ s : State,
    exec (decodeSixBit w) s = exec (decodeSixBit (w &&& 0o70)) s) ∧
  ∀ (x y : Element) (s : State), exec (decodeSixBit (sixBit 4 x)) s = exec (decodeSixBit (sixBit 4 y)) s

/-- 30_encoding.md R70 and R73, the opcode map, with the operand modes of R64. The numbers rest on the spec's decision D4. -/
def Obligations.OpcodeNumbersSelectInstructions : Prop :=
  ∀ x : Element,
    decodePair 0 x = .adv (comboOf x) ∧ decodePair 1 x = .bxl x ∧ decodePair 2 x = .bst (comboOf x) ∧
    decodePair 3 x = .jnz (comboOf x) ∧ decodePair 4 x = .bxc x ∧ decodePair 5 x = .out (comboOf x) ∧
    decodePair 6 x = .bdv (comboOf x) ∧ decodePair 7 x = .cdv (comboOf x)

/-- A few words of 95_test_vectors.md L3-1 written out in bits and decoded (30_encoding.md R61 R70): sanity only. -/
def Obligations.ListedWordsDecode : Prop :=
  decodeSixBit 0b010100 = .bst (.reg .a) ∧ decodeSixBit 0b001001 = .bxl 1 ∧ decodeSixBit 0b111101 = .cdv (.reg .b) ∧
  decodeSixBit 0b100100 = .bxc 4 ∧ decodeSixBit 0b000011 = .adv (.lit 3) ∧ decodeSixBit 0b101101 = .out (.reg .b) ∧
  decodeSixBit 0b011000 = .jnz (.lit 0) ∧ decodeSixBit 0b110101 = .bdv (.reg .b)

/-- Decoder and encoder agree (30_encoding.md R60 R61 R72): elements decode to an instruction exactly when they begin with its
encoding, for every instruction, operand and rest; and they are rejected exactly when no pair stands there. -/
def Obligations.DecodeAnswersExactlyTheEncoded : Prop :=
  ∀ es : List Element,
    (∀ (i : Instr) (rest : List Element), decode es = .instr i rest ↔ es = encode i ++ rest) ∧
    ((∃ e, decode es = .rejected e) ↔ es.length < 2)

/-- The six-bit view is faithful both ways, and the host's word form of an instruction is its six-bit view (30_encoding.md R61;
which numbers are no instruction is the model's choice, log 16). -/
def Obligations.SixBitViewRoundTrips : Prop :=
  (∀ i : Instr, decodeSixBit (encodeSixBit i) = i ∧ decodeTableWord 8 (encodeSixBit i).toNat = some i ∧
    decodeTableWord 6 (encodeSixBit i).toNat = some i) ∧
  (∀ w : SixBit, encodeSixBit (decodeSixBit w) = w) ∧
  ∀ w : Nat, 64 ≤ w → w < 256 → decodeTableWord 8 w = none

/-! ### The step, the halt and the program counter -/

/-- 42_control.md R120 whole, with the fetch of R122: a step at a complete pair is the execution of the decoded pair and
results in the trace record; a step without one changes nothing and results in none. -/
def Obligations.StepExecutesTheDecodedPair : Prop :=
  ∀ s : State,
    (∀ o x, Memory.element? s.prog s.pc.toNat = some o → Memory.element? s.prog (s.pc.toNat + 1) = some x →
      step s = exec (decodePair o x) s ∧ traceOf s = some { pc := s.pc, opcode := o, operand := x }) ∧
    (∀ i rest, decode (s.prog.drop s.pc.toNat) = .instr i rest → step s = exec i s) ∧
    (s.prog.length ≤ s.pc.toNat + 1 → step s = .next s ∧ traceOf s = none)

/-- 42_control.md R121 whole: a step halts exactly when `pc + 1 >= N`, and a halting step writes nothing, results in no trace
record and raises nothing; a step that does not halt results in a trace record and executes an instruction. -/
def Obligations.HaltsExactlyWithoutAPair : Prop :=
  ∀ s : State,
    (halted s = true ↔ s.pc.toNat + 1 ≥ s.prog.length) ∧
    (halted s = true ↔ traceOf s = none) ∧
    (halted s = true → step s = .next s ∧ outData s = none) ∧
    (halted s = false → ∃ i t, currentInstr s = some i ∧ step s = exec i s ∧ exec i s = .next t)

/-- The trailing opcode of an odd-length program is never executed (42_control.md R126; that the halt comes at the step that
reaches it is the spec's decision D22). -/
def Obligations.TrailingOpcodeHalts : Prop :=
  ∀ s : State, s.prog.length = s.pc.toNat + 1 →
    (∃ o, decode (fetchElements s) = .rejected (.trailingOpcode o)) ∧ halted s = true ∧ step s = .next s

/-- An empty program and a program of one element halt at the first step and keep the host's values (42_control.md R130, the
spec's inference from R121). -/
def Obligations.EmptyOrSingleElementProgramHalts : Prop :=
  ∀ l : Launch, l.prog.length ≤ 1 →
    halted (State.boot l) = true ∧ ∀ k, stepN k (State.boot l) = State.boot l

/-- Halt is final (10_state.md R33, the spec's inference from R24(a)): no later step changes anything, results in a trace
record or appends a value. -/
def Obligations.HaltIsFinal : Prop :=
  ∀ (s : State) (k : Nat), halted s = true →
    stepN k s = s ∧ halted (stepN k s) = true ∧ traces k s = [] ∧ emitted k s = []

/-- No step ends in a fault or a refusal, from any state and for any number of steps (60_exceptions.md R160, 42_control.md
R124), and the host's run is the run by `stepN`. -/
def Obligations.EveryRunIsFreeOfFaults : Prop :=
  ∀ s : State, SafeRun s ∧ (∃ t, step s = .next t) ∧ ∀ k, Sys2Proof.core.run k s = .next (stepN k s)

/-- 10_state.md R24 whole: the program counter after a halting step, after a taken Jnz, and after every other step. -/
def Obligations.ProgramCounterUpdate : Prop :=
  ∀ s : State, ∃ t, step s = .next t ∧
    (halted s = true → t.pc = s.pc) ∧
    (∀ x, currentInstr s = some (.jnz x) → s.a ≠ 0 → t.pc = comboValue x s) ∧
    (∀ x, currentInstr s = some (.jnz x) → s.a = 0 → t.pc = s.pc + 2) ∧
    (∀ i, currentInstr s = some i → i.opcode ≠ .jnz → t.pc = s.pc + 2)

/-- The program counter never wraps (10_state.md R25, the spec's inference; `StoreInv` is the spec's bound `N < 2^W`, R6). -/
def Obligations.ProgramCounterNeverWraps : Prop :=
  ∀ s t : State, StoreInv s → halted s = false → step s = .next t →
    (t.pc.toNat = s.pc.toNat + 2 ∧ t.pc.toNat ≤ s.prog.length) ∨
    (∃ x, currentInstr s = some (.jnz x) ∧ s.a ≠ 0 ∧ t.pc = comboValue x s)

/-- A combo operand that names the destination sees the old value (10_state.md R27, the spec's decision D8). -/
def Obligations.ShiftByTheDestinationUsesOldValue : Prop :=
  ∀ s : State, ∃ t u w,
    exec (.adv (.reg .a)) s = .next t ∧ t.a.toNat = s.a.toNat / 2 ^ s.a.toNat ∧ t.a = 0 ∧
    exec (.bdv (.reg .b)) s = .next u ∧ u.b.toNat = s.a.toNat / 2 ^ s.b.toNat ∧ u.a = s.a ∧
    exec (.cdv (.reg .c)) s = .next w ∧ w.c.toNat = s.a.toNat / 2 ^ s.c.toNat ∧ w.a = s.a

/-- A Jnz to its own index with A not zero never ends (42_control.md R125 R127; that such a run is kept infinite is the
spec's decision D14). -/
def Obligations.JnzToItselfNeverEnds : Prop :=
  ∀ (s : State) (x : Combo), currentInstr s = some (.jnz x) → s.a ≠ 0 → comboValue x s = s.pc →
    NeverEnds s ∧ ∀ k, stepN k s = s

/-- The two readings of Jnz's operand mode agree on operands 0 to 3, and the machine takes the combo reading
(93_implementation_defined.md I5; log 9). -/
def Obligations.JnzReadingsAgreeOnSmallOperands : Prop :=
  ∀ (x : Combo) (s : State),
    exec (.jnz x) s = .next (jnzWith .combo x s) ∧
    ∀ v, x = .lit v → jnzWith .literal x s = jnzWith .combo x s

/-! ### Registers, the program store and the output -/

/-- 10_state.md R21 whole: no instruction writes a register outside its write ports, which are at most one, and what it
computes does not depend on a register outside its read uses. -/
def Obligations.RegisterPortsOfEveryInstruction : Prop :=
  ∀ (i : Instr) (s : State), ∃ t, exec i s = .next t ∧
    (∀ r, writes i r = false → readReg r t = readReg r s) ∧
    (∀ r q, writes i r = true → writes i q = true → r = q) ∧
    ∀ r v, reads i r = false → ∃ u, exec i (writeReg r v s) = .next u ∧
      u.pc = t.pc ∧ u.out = t.out ∧ u.prog = t.prog ∧ ∀ q, writes i q = true → readReg q u = readReg q t

/-- 10_state.md R30 whole: the program store holds what the host loaded and is read-only for every instruction and every run;
every element of it reads as before. -/
def Obligations.ProgramStoreIsReadOnly : Prop :=
  (∀ (i : Instr) (s : State), ∃ t, exec i s = .next t ∧ t.prog.length = s.prog.length ∧
    ∀ k, Memory.element? t.prog k = Memory.element? s.prog k) ∧
  ∀ (l : Launch) (k : Nat), (stepN k (State.boot l)).prog = l.prog

/-- The program is a parameter of the step and of the run, and not state (20_memory.md R49, R40): the machine's step is the step
on its program of the architectural state, whose instructions are given no program at all; a run of the machine is the run
on that one program; and only a reset loads a different one. That a state holds its program beside the architectural state is
the model's choice (log 4). -/
def Obligations.StepTakesProgramAsParameter : Prop :=
  (∀ s : State, ∃ y, stepOf s.prog (archOf s) = .next y ∧ step s = .next (withProgram s.prog y)) ∧
  (∀ (p : Memory) (x : ArchState), ∃ y, stepOf p x = .next y ∧ step (withProgram p x) = .next (withProgram p y)) ∧
  (∀ (i : Instr) (p : Memory) (x : ArchState), ∃ y, execArch i x = .next y ∧
    exec i (withProgram p x) = .next (withProgram p y)) ∧
  (∀ (k : Nat) (p : Memory) (x : ArchState), ∃ y, runOf p k x = .next y ∧
    stepN k (withProgram p x) = withProgram p y) ∧
  ∀ (e : HostEvent) (s : State), (hostEvent e s).prog ≠ s.prog → ∃ l, e = .reset l ∧ (hostEvent e s).prog = l.prog

/-- 10_state.md R31 whole: the output grows by exactly one element for an executed Out and not otherwise, no element once
appended changes, and no step reads it. -/
def Obligations.OutputIsAppendOnlyAndNeverRead : Prop :=
  ∀ s : State,
    (∃ t, step s = .next t ∧
      (∀ x, currentInstr s = some (.out x) → ∃ v, t.out = s.out ++ [v]) ∧
      ((∀ x, currentInstr s ≠ some (.out x)) → t.out = s.out)) ∧
    (∀ k, s.out <+: (stepN k s).out) ∧
    ∀ (o : List Element) (k : Nat), { stepN k { s with out := o } with out := [] } = { stepN k s with out := [] }

/-- The output after any number of steps is what was there before with the values of the executed Outs, in order; from a
launch it is those values alone (43_output.md R141; that there is no limit is the spec's decision D11). -/
def Obligations.OutputHoldsEmittedValuesInOrder : Prop :=
  (∀ (s : State) (k : Nat), (stepN k s).out = s.out ++ emitted k s) ∧
  ∀ (l : Launch) (k : Nat), (stepN k (State.boot l)).out = emitted k (State.boot l)

/-- Runs that differ only in the output they start with take the same steps, give the same trace records and append the same
values (42_control.md R129, the spec's inference from R120; 10_state.md R31). -/
def Obligations.RunDoesNotDependOnOutput : Prop :=
  ∀ (s : State) (o : List Element) (k : Nat),
    stepN k { s with out := o } = { stepN k s with out := o ++ emitted k s } ∧
    traces k { s with out := o } = traces k s ∧ emitted k { s with out := o } = emitted k s

/-! ### The machine against natural numbers -/

/-- One step of the machine is one step of the core over unbounded natural numbers, which is written from the raw elements
(10_state.md R22, the spec's inference). -/
def Obligations.StepRefinesNatCore : Prop :=
  ∀ s : State, StoreInv s → ∃ t, step s = .next t ∧ natCoreOf t = (natCoreOf s).step

/-- From every admissible launch the machine's run is the run of the core over unbounded natural numbers from the values the
host presents (10_state.md R22, the spec's inference; 70_reset_and_hazards.md R180 R183). -/
def Obligations.RunsRefineNatCore : Prop :=
  ∀ (p : List Nat) (a0 b0 c0 : Nat) (l : Launch), launch? p a0 b0 c0 = some l → ∀ k,
    natCoreOf (stepN k (State.boot l)) =
      NatCore.stepN k { a := a0, b := b0, c := c0, pc := 0, prog := p.map (BitVec.ofNat 3), out := [] }

/-- For every width of at least 3 bits a step keeps every register and the program counter below `2^w` (10_state.md R22 R25,
the spec's inference): no instruction overflows, so no width is special. -/
def Obligations.NatCoreKeepsEveryWidth : Prop :=
  ∀ (w : Nat) (n : NatCore), 3 ≤ w → n.InRange w → n.step.InRange w

/-! ### Invariants -/

/-- Every step keeps the bound of 00_scope.md R6 on the program store. -/
def Obligations.StepKeepsStoreBound : Prop :=
  ∀ s t : State, StoreInv s → step s = .next t → StoreInv t

/-- In a program that jumps to even indices only, every step keeps the program counter even (70_reset_and_hazards.md R184;
92_eei_decisions.md D6). -/
def Obligations.StepKeepsProgramCounterEven : Prop :=
  ∀ s t : State, EvenInv s → step s = .next t → EvenInv t

/-- So such a program never halts on a trailing opcode: it halts past its end (42_control.md R126; 60_exceptions.md R161). -/
def Obligations.EvenProgramHaltsPastTheEnd : Prop :=
  ∀ s : State, EvenInv s → halted s = true → s.prog.length ≤ s.pc.toNat

/-- The invariants hold at `State.reset`, whose empty program and zero registers are the model's choice (log 6). -/
def Obligations.ResetMeetsTheInvariants : Prop :=
  StoreInv State.reset ∧ EvenInv State.reset

/-! ### Reset and the host -/

/-- Reset sets every piece of state: program and registers to the host's inputs, pc to 0, the output to the empty list
(70_reset_and_hazards.md R180, 10_state.md R34; pc = 0 is the spec's decision D5, log 7). `State.reset` is the launch of the
empty program with zeros, the model's choice (log 6). -/
def Obligations.ResetSetsEveryField : Prop :=
  (∀ l : Launch, (State.boot l).a = l.a0 ∧ (State.boot l).b = l.b0 ∧ (State.boot l).c = l.c0 ∧
    (State.boot l).pc = 0 ∧ (State.boot l).prog = l.prog ∧ (State.boot l).out = []) ∧
  State.reset = State.boot { prog := [], a0 := 0, b0 := 0, c0 := 0 } ∧
  Sys2Proof.core.reset = State.reset

/-- A reset at any step boundary discards all that went before (70_reset_and_hazards.md R181, the spec's decision D24). -/
def Obligations.ResetDiscardsEverythingBefore : Prop :=
  ∀ (before after : List HostEvent) (l : Launch) (s : State),
    hostEvents (before ++ .reset l :: after) s = hostEvents after (State.boot l)

/-- Which integers the host may present, and that the core then starts from exactly them (70_reset_and_hazards.md R182 R183;
00_scope.md R6; the bounds are the spec's decisions D3 and D18). That the input prog_len carries `N` is R195, the spec's
decision D10; that it is computed from the launch's program is the model's choice (log 17). -/
def Obligations.LaunchTakesExactlyAdmissibleInputs : Prop :=
  ∀ (p : List Nat) (a0 b0 c0 : Nat),
    ((∃ l, launch? p a0 b0 c0 = some l) ↔
      (∀ e ∈ p, e < 8) ∧ p.length < 2 ^ Config.W ∧ a0 < 2 ^ Config.W ∧ b0 < 2 ^ Config.W ∧ c0 < 2 ^ Config.W) ∧
    ∀ l, launch? p a0 b0 c0 = some l →
      (State.boot l).prog.map BitVec.toNat = p ∧ (State.boot l).a.toNat = a0 ∧ (State.boot l).b.toNat = b0 ∧
      (State.boot l).c.toNat = c0 ∧ l.progLen.toNat = p.length ∧ StoreInv (State.boot l)

/-- What a host with its own ceiling sees: the end of the run if it comes within that many steps, else the state it stopped at,
which is no end of the run (00_scope.md R7, 42_control.md R127 R128; the spec's decisions D14 and D23). That a run which ends
after exactly the ceiling's number of executed instructions is seen as ended is the model's choice (log 21). -/
def Obligations.CeilingSeesEndOrStops : Prop :=
  ∀ (ceiling : Nat) (s t : State),
    (hostRun ceiling s = .ended t ↔ ∃ k, k ≤ ceiling ∧ EndsAfter k s t) ∧
    (hostRun ceiling s = .stopped t ↔ (∀ j, j ≤ ceiling → halted (stepN j s) = false) ∧ stepN ceiling s = t)

/-- What the end of a run is (42_control.md R124 R128, R121; that it is the first halting step is the spec's decision D23): the
final state has no complete pair at its program counter, holds the program of the start, has the output of the start with the
values emitted, and is left by no later step; each of the `k` steps before it executed an instruction, with one trace record
each. A run has no end exactly when every state of it has a pair at its program counter, and it has at most one end. -/
def Obligations.EndOfRunIsTheFinalHaltedState : Prop :=
  (∀ (s t : State) (k : Nat), EndsAfter k s t →
    t.prog.length ≤ t.pc.toNat + 1 ∧ t.prog = s.prog ∧ step t = .next t ∧ traceOf t = none ∧
    t.out = s.out ++ emitted k s ∧ (traces k s).length = k ∧
    (∀ m, stepN (k + m) s = t) ∧
    (∀ j, j < k → ∃ i u, currentInstr (stepN j s) = some i ∧ exec i (stepN j s) = .next u ∧ stepN (j + 1) s = u) ∧
    ∀ (m : Nat) (u : State), EndsAfter m s u → m = k ∧ u = t) ∧
  ∀ s : State,
    (NeverEnds s ↔ ∀ k, (stepN k s).pc.toNat + 1 < s.prog.length) ∧
    ((∃ k t, EndsAfter k s t) ↔ ∃ k, s.prog.length ≤ (stepN k s).pc.toNat + 1)

/-- The trace record of a step is the pair at the program counter, raw, with that program counter (10_state.md R32,
60_exceptions.md R171; its contents are the spec's decision D16). -/
def Obligations.TraceRecordIsTheFetchedPair : Prop :=
  ∀ (s : State) (r : TraceRecord),
    (traceOf s = some r ↔ r.pc = s.pc ∧ Memory.element? s.prog s.pc.toNat = some r.opcode ∧
      Memory.element? s.prog (s.pc.toNat + 1) = some r.operand) ∧
    (traceOf s = some r → currentInstr s = some (decodePair r.opcode r.operand))

/-- The output signals: out_valid with out_data tell exactly what the step appends, halted is the absence of a trace record, and
the registers and the program counter are shown as they are (70_reset_and_hazards.md R195, the spec's decision D10). -/
def Obligations.OutputSignalsTellTheStep : Prop :=
  ∀ s : State, ∃ t, step s = .next t ∧
    t.out = s.out ++ (outputsOf s).outData.toList ∧
    ((outputsOf s).outData.isSome = true ↔ ∃ x, currentInstr s = some (.out x)) ∧
    ((outputsOf s).halted = true ↔ (outputsOf s).trace = none) ∧
    (outputsOf s).a = s.a ∧ (outputsOf s).b = s.b ∧ (outputsOf s).c = s.c ∧ (outputsOf s).pc = s.pc

/-- In a well-formed run no step executes a reserved encoding (70_reset_and_hazards.md R184, 30_encoding.md R72; the premise is
the spec's decision D21). -/
def Obligations.WellFormedRunMeetsNoReservedWord : Prop :=
  ∀ (s : State) (k : Nat) (r : TraceRecord), WellFormedRun s → traceOf (stepN k s) = some r →
    sixBit r.opcode r.operand ∉ ([0o07, 0o27, 0o37, 0o57, 0o67, 0o77] : List SixBit)

/-- Whatever the host plays on several cores, each runs as if alone on the events meant for it; cores launched on one program
have their own registers and, while they only step, all keep that program (60_exceptions.md R170, 20_memory.md R50; that the
host's events reach the cores one at a time is the model's choice, log 20). -/
def Obligations.EachCoreRunsAsIfAlone : Prop :=
  (∀ (sched : List (Nat × HostEvent)) (b : Bank) (j : Nat),
    (Bank.run sched b)[j]? = (b[j]?).map (hostEvents (eventsFor j sched))) ∧
  ∀ (p : Memory) (inits : List (Word × Word × Word)),
    (∀ (j : Nat) (a0 b0 c0 : Word), inits[j]? = some (a0, b0, c0) →
      (Bank.launch p inits)[j]? = some (State.boot { prog := p, a0 := a0, b0 := b0, c0 := c0 })) ∧
    ∀ sched : List (Nat × HostEvent), (∀ e ∈ sched, e.2 = .step) →
      ∀ s ∈ Bank.run sched (Bank.launch p inits), s.prog = p

/-- The word the host places at the program counter is the instruction the very next step executes; nothing but the two
elements changes (log 6, log 16: how a program is placed is the model's choice). -/
def Obligations.PlacedWordIsExecutedNext : Prop :=
  ∀ (s : State) (w : Nat), w < 64 →
    ∃ i, decodeTableWord 8 w = some i ∧ (encodeSixBit i).toNat = w ∧
      step (s.withFetchWord 8 w) = exec i (s.withFetchWord 8 w) ∧
      (∀ k, k < s.prog.length → k < s.pc.toNat ∨ s.pc.toNat + 2 ≤ k →
        Memory.element? (s.withFetchWord 8 w).prog k = Memory.element? s.prog k) ∧
      (StoreInv s → s.pc.toNat + 2 < 2 ^ Config.W → StoreInv (s.withFetchWord 8 w)) ∧
      { s.withFetchWord 8 w with prog := s.prog } = s
end

