-- ==== Sys2Proof/Laws/Decode.lean ====
section
/-! SUPPORT. Laws of the operand and opcode codes: each map undoes the other, and the rows of the opcode table are apart. -/

namespace Sys2Proof

@[simp] theorem comboOf_comboCode (x : Combo) : comboOf (comboCode x) = x := by
  cases x with
  | lit v => revert v; decide
  | reg r => cases r <;> rfl
  | reserved => rfl

@[simp] theorem comboCode_comboOf (x : Element) : comboCode (comboOf x) = x := by
  revert x; decide

@[simp] theorem opcodeOf_opcodeCode (o : Opcode) : opcodeOf (opcodeCode o) = o := by
  cases o <;> rfl

@[simp] theorem opcodeCode_opcodeOf (o : Element) : opcodeCode (opcodeOf o) = o := by
  revert o; decide

/-- The high three bits of the six-bit view are the opcode (30_encoding.md R61). -/
@[simp] theorem sixBit_opcode (o x : Element) : (sixBit o x).extractLsb' 3 3 = o := by
  revert o x; decide

/-- The low three bits of the six-bit view are the operand (30_encoding.md R61). -/
@[simp] theorem sixBit_operand (o x : Element) : (sixBit o x).extractLsb' 0 3 = x := by
  revert o x; decide

/-- The six-bit view and the two elements decode to the same instruction. -/
theorem decodeSixBit_sixBit (o x : Element) : decodeSixBit (sixBit o x) = decodePair o x := by
  simp [decodeSixBit]

/-- No word belongs to two rows of the opcode table. -/
theorem opcodeTable_disjoint :
    opcodeTable.Pairwise fun r q => ∀ w : SixBit, ¬ (r.matches w = true ∧ q.matches w = true) := by
  decide

/-- An instruction has a combo operand exactly where its opcode's operand mode is combo (30_encoding.md R64). -/
theorem combo?_isSome_iff (i : Instr) : i.combo?.isSome = true ↔ i.opcode.mode = .combo := by
  cases i <;> simp [Instr.combo?, Instr.opcode, Opcode.mode]

/-- What decoding answers, in one place: a rejection for fewer than two elements, else the pair's instruction. -/
theorem decode_cases (es : List Element) :
    (es = [] ∧ decode es = .rejected .noElement) ∨
    (∃ o, es = [o] ∧ decode es = .rejected (.trailingOpcode o)) ∨
    (∃ o x rest, es = o :: x :: rest ∧ decode es = .instr (decodePair o x) rest) := by
  match es with
  | [] => exact .inl ⟨rfl, rfl⟩
  | [o] => exact .inr (.inl ⟨o, rfl, rfl⟩)
  | o :: x :: rest => exact .inr (.inr ⟨o, x, rest, rfl, rfl⟩)

end Sys2Proof
end

