-- ==== Sys2Proof/Laws/Memory.lean ====
section
/-! SUPPORT. Laws of the program store: what placing elements does to each index, and that it keeps `N < 2^W`. -/

namespace Sys2Proof.Machine

theorem Memory.wf_iff (m : Memory) : Memory.wf m = true ↔ m.length < 2 ^ Config.W := by
  simp [Memory.wf]

/-- The store right after reset keeps the form. -/
theorem reset_prog_wf : Memory.wf State.reset.prog = true := by decide

theorem Memory.length_place (m : Memory) (i : Nat) (es : List Element) :
    (Memory.place m i es).length = max m.length (i + es.length) := by
  simp only [Memory.place, List.length_append, List.length_take, List.length_replicate, List.length_drop]
  omega

/-- Placing elements keeps the form where they end inside the address space. -/
theorem Memory.place_wf {m : Memory} {i : Nat} {es : List Element} (hm : Memory.wf m = true)
    (hi : i + es.length < 2 ^ Config.W) : Memory.wf (Memory.place m i es) = true := by
  rw [Memory.wf_iff] at hm ⊢
  rw [Memory.length_place]
  exact max_lt hm hi

/-- The part of the store before the placed elements has length `i`. -/
theorem Memory.length_before (m : Memory) (i : Nat) :
    (m.take i ++ List.replicate (i - m.length) (0 : Element)).length = i := by
  simp only [List.length_append, List.length_take, List.length_replicate]
  omega

/-- From index `i` on, the store reads as the placed elements followed by the old store's rest. -/
theorem Memory.drop_place (m : Memory) (i : Nat) (es : List Element) :
    (Memory.place m i es).drop i = es ++ m.drop (i + es.length) := by
  unfold Memory.place
  rw [List.append_assoc, List.drop_append_of_le_length (Memory.length_before m i).ge,
    List.drop_eq_nil_of_le (Memory.length_before m i).le, List.nil_append]

/-- A placed element reads back. -/
theorem Memory.element?_place (m : Memory) (i k : Nat) (es : List Element) (hk : k < es.length) :
    (Memory.place m i es).element? (i + k) = es[k]? := by
  have h := congrArg (fun l : List Element => l[k]?) (Memory.drop_place m i es)
  simp only [List.getElem?_drop] at h
  simpa [Memory.element?, List.getElem?_append_left hk] using h

/-- An index of the old store outside the placed elements reads as before. -/
theorem Memory.element?_place_of_outside {m : Memory} {i k : Nat} {es : List Element}
    (hm : k < m.length) (hk : k < i ∨ i + es.length ≤ k) :
    (Memory.place m i es).element? k = m.element? k := by
  rcases hk with hk | hk
  · unfold Memory.element? Memory.place
    rw [List.append_assoc, List.append_assoc, List.getElem?_append_left (by simp; omega), List.getElem?_take_of_lt hk]
  · have h := congrArg (fun l : List Element => l[k - i]?) (Memory.drop_place m i es)
    simp only [List.getElem?_drop] at h
    rw [show i + (k - i) = k by omega, List.getElem?_append_right (by omega), List.getElem?_drop] at h
    rw [Memory.element?, Memory.element?, h]
    congr 1
    omega

end Sys2Proof.Machine
end

