-- ==== Sys2Proof/Laws/State.lean ====
section
/-! SUPPORT. Laws of the state's updates: what each named update leaves in each field, so that no later proof unfolds one. -/

namespace Sys2Proof.Machine

@[simp] theorem boot_a (l : Launch) : (State.boot l).a = l.a0 := rfl
@[simp] theorem boot_b (l : Launch) : (State.boot l).b = l.b0 := rfl
@[simp] theorem boot_c (l : Launch) : (State.boot l).c = l.c0 := rfl
@[simp] theorem boot_pc (l : Launch) : (State.boot l).pc = 0 := rfl
@[simp] theorem boot_prog (l : Launch) : (State.boot l).prog = l.prog := rfl
@[simp] theorem boot_out (l : Launch) : (State.boot l).out = [] := rfl

@[simp] theorem advance_a (s : State) : (advance s).a = s.a := rfl
@[simp] theorem advance_b (s : State) : (advance s).b = s.b := rfl
@[simp] theorem advance_c (s : State) : (advance s).c = s.c := rfl
@[simp] theorem advance_pc (s : State) : (advance s).pc = s.pc + 2 := rfl
@[simp] theorem advance_prog (s : State) : (advance s).prog = s.prog := rfl
@[simp] theorem advance_out (s : State) : (advance s).out = s.out := rfl

@[simp] theorem jumpTo_a (t : Word) (s : State) : (jumpTo t s).a = s.a := rfl
@[simp] theorem jumpTo_b (t : Word) (s : State) : (jumpTo t s).b = s.b := rfl
@[simp] theorem jumpTo_c (t : Word) (s : State) : (jumpTo t s).c = s.c := rfl
@[simp] theorem jumpTo_pc (t : Word) (s : State) : (jumpTo t s).pc = t := rfl
@[simp] theorem jumpTo_prog (t : Word) (s : State) : (jumpTo t s).prog = s.prog := rfl
@[simp] theorem jumpTo_out (t : Word) (s : State) : (jumpTo t s).out = s.out := rfl

@[simp] theorem appendOut_a (v : Element) (s : State) : (appendOut v s).a = s.a := rfl
@[simp] theorem appendOut_b (v : Element) (s : State) : (appendOut v s).b = s.b := rfl
@[simp] theorem appendOut_c (v : Element) (s : State) : (appendOut v s).c = s.c := rfl
@[simp] theorem appendOut_pc (v : Element) (s : State) : (appendOut v s).pc = s.pc := rfl
@[simp] theorem appendOut_prog (v : Element) (s : State) : (appendOut v s).prog = s.prog := rfl
@[simp] theorem appendOut_out (v : Element) (s : State) : (appendOut v s).out = s.out ++ [v] := rfl

@[simp] theorem writeReg_a (v : Word) (s : State) : writeReg .a v s = { s with a := v } := rfl
@[simp] theorem writeReg_b (v : Word) (s : State) : writeReg .b v s = { s with b := v } := rfl
@[simp] theorem writeReg_c (v : Word) (s : State) : writeReg .c v s = { s with c := v } := rfl
@[simp] theorem writeReg_pc (r : Reg) (v : Word) (s : State) : (writeReg r v s).pc = s.pc := by cases r <;> rfl
@[simp] theorem writeReg_prog (r : Reg) (v : Word) (s : State) : (writeReg r v s).prog = s.prog := by cases r <;> rfl
@[simp] theorem writeReg_out (r : Reg) (v : Word) (s : State) : (writeReg r v s).out = s.out := by cases r <;> rfl

@[simp] theorem readReg_a (s : State) : readReg .a s = s.a := rfl
@[simp] theorem readReg_b (s : State) : readReg .b s = s.b := rfl
@[simp] theorem readReg_c (s : State) : readReg .c s = s.c := rfl
@[simp] theorem readReg_advance (r : Reg) (s : State) : readReg r (advance s) = readReg r s := by cases r <;> rfl
@[simp] theorem readReg_jumpTo (r : Reg) (t : Word) (s : State) : readReg r (jumpTo t s) = readReg r s := by
  cases r <;> rfl
@[simp] theorem readReg_appendOut (r : Reg) (v : Element) (s : State) : readReg r (appendOut v s) = readReg r s := by
  cases r <;> rfl

/-- A read after a write to the same register gives the value written. -/
@[simp] theorem readReg_writeReg_self (r : Reg) (v : Word) (s : State) : readReg r (writeReg r v s) = v := by
  cases r <;> rfl

/-- A write leaves every other register alone: the registers have no aliases (10_state.md R20). -/
theorem readReg_writeReg_of_ne {q r : Reg} (h : q ≠ r) (v : Word) (s : State) :
    readReg q (writeReg r v s) = readReg q s := by
  cases q <;> cases r <;> first | rfl | exact absurd rfl h

end Sys2Proof.Machine
end

