-- ==== Sys2Proof/Laws/Ops.lean ====
section
/-! SUPPORT. Laws of the shared operations: the arithmetic as numbers, the values of operands, what a fetch finds, and the
effect of each instruction and of a step as an equation. Later proofs cite these and unfold nothing. -/

namespace Sys2Proof.Machine

/-- The width meets the spec's bound (00_scope.md R5). -/
theorem width_ge : 49 ≤ Config.W := by decide

theorem two_pow_le_of_le_width {k : Nat} (h : k ≤ 49) : 2 ^ k ≤ 2 ^ Config.W :=
  Nat.pow_le_pow_right (by decide) (h.trans width_ge)

/-! ### The arithmetic (40_shift.md R101; 00_scope.md R10 R11) -/

theorem shiftRight_toNat (v : Word) (s : Nat) : (shiftRight v s).toNat = v.toNat / 2 ^ s := by
  simp [shiftRight, Nat.shiftRight_eq_div_pow]

theorem low3_toNat (v : Word) : (low3 v).toNat = v.toNat % 8 := by
  simp [low3]

theorem zext_toNat (x : Element) : (zext x).toNat = x.toNat := by
  rw [zext, BitVec.toNat_setWidth]
  exact Nat.mod_eq_of_lt (x.isLt.trans_le (two_pow_le_of_le_width (by decide)))

theorem zext_low3_toNat (v : Word) : (zext (low3 v)).toNat = v.toNat % 8 := by
  rw [zext_toNat, low3_toNat]

/-! ### Operand values (30_encoding.md R65 R66) -/

@[simp] theorem comboValue_reg (r : Reg) (s : State) : comboValue (.reg r) s = readReg r s := rfl
@[simp] theorem comboValue_reserved (s : State) : comboValue .reserved s = 0 := rfl

theorem comboValue_lit_toNat (v : BitVec 2) (s : State) : (comboValue (.lit v) s).toNat = v.toNat := by
  rw [comboValue, BitVec.toNat_setWidth]
  exact Nat.mod_eq_of_lt (v.isLt.trans_le (two_pow_le_of_le_width (by decide)))

/-- A combo operand reads registers only: neither the program counter, the program nor the output. -/
theorem comboValue_congr {x : Combo} {s t : State} (h : ∀ r, readReg r s = readReg r t) :
    comboValue x s = comboValue x t := by
  cases x with
  | lit v => rfl
  | reg r => exact h r
  | reserved => rfl

/-! ### The instructions' effects -/

theorem exec_adv (x : Combo) (s : State) : exec (.adv x) s = .next (shiftInto .a x s) := rfl
theorem exec_bxl (x : Element) (s : State) :
    exec (.bxl x) s = .next (advance { s with b := s.b ^^^ zext x }) := rfl
theorem exec_bst (x : Combo) (s : State) :
    exec (.bst x) s = .next (advance { s with b := zext (low3 (comboValue x s)) }) := rfl
theorem exec_jnz (x : Combo) (s : State) :
    exec (.jnz x) s = .next (if s.a != 0 then jumpTo (comboValue x s) s else advance s) := rfl
theorem exec_jnz_taken {s : State} (h : s.a ≠ 0) (x : Combo) :
    exec (.jnz x) s = .next (jumpTo (comboValue x s) s) := by
  rw [exec_jnz, if_pos (by simpa using h)]
theorem exec_jnz_not_taken {s : State} (h : s.a = 0) (x : Combo) : exec (.jnz x) s = .next (advance s) := by
  rw [exec_jnz, if_neg (by simpa using h)]
theorem exec_bxc (x : Element) (s : State) :
    exec (.bxc x) s = .next (advance { s with b := s.b ^^^ s.c }) := rfl
theorem exec_out (x : Combo) (s : State) :
    exec (.out x) s = .next (advance (appendOut (low3 (comboValue x s)) s)) := rfl
theorem exec_bdv (x : Combo) (s : State) : exec (.bdv x) s = .next (shiftInto .b x s) := rfl
theorem exec_cdv (x : Combo) (s : State) : exec (.cdv x) s = .next (shiftInto .c x s) := rfl

/-- Everything the shared shift leaves: the amount and the value shifted are the old ones. -/
theorem shiftInto_eq (dst : Reg) (x : Combo) (s : State) :
    shiftInto dst x s = advance (writeReg dst (shiftRight s.a (comboValue x s).toNat) s) := rfl

@[simp] theorem shiftInto_pc (dst : Reg) (x : Combo) (s : State) : (shiftInto dst x s).pc = s.pc + 2 := by
  simp [shiftInto_eq]
@[simp] theorem shiftInto_prog (dst : Reg) (x : Combo) (s : State) : (shiftInto dst x s).prog = s.prog := by
  simp [shiftInto_eq]
@[simp] theorem shiftInto_out (dst : Reg) (x : Combo) (s : State) : (shiftInto dst x s).out = s.out := by
  simp [shiftInto_eq]

/-! ### What a fetch finds (42_control.md R120 R121 R122) -/

/-- The elements at the program counter, in one place: too few where the core is halted, else the pair. -/
theorem fetch_cases (s : State) :
    (halted s = true ∧ currentInstr s = none ∧ traceOf s = none) ∨
    (∃ o x, halted s = false ∧ s.prog[s.pc.toNat]? = some o ∧ s.prog[s.pc.toNat + 1]? = some x ∧
      currentInstr s = some (decodePair o x) ∧ traceOf s = some ⟨s.pc, o, x⟩) := by
  have h0 := List.getElem?_drop (xs := s.prog) (i := s.pc.toNat) (j := 0)
  have h1 := List.getElem?_drop (xs := s.prog) (i := s.pc.toNat) (j := 1)
  have hlen := List.length_drop (i := s.pc.toNat) (l := s.prog)
  unfold halted currentInstr traceOf fetchElements
  match hd : s.prog.drop s.pc.toNat with
  | [] =>
    rw [hd] at hlen
    simp only [List.length_nil] at hlen
    exact .inl ⟨by simp; omega, rfl, rfl⟩
  | [o] =>
    rw [hd] at hlen
    simp only [List.length_cons, List.length_nil] at hlen
    exact .inl ⟨by simp; omega, rfl, rfl⟩
  | o :: x :: rest =>
    rw [hd] at h0 h1 hlen
    simp only [List.length_cons] at hlen
    exact .inr ⟨o, x, by simp; omega, by simpa using h0.symm, by simpa using h1.symm, rfl, rfl⟩

theorem step_of_none {s : State} (h : currentInstr s = none) : step s = .next s := by
  simp [step, h, haltStep]

theorem step_of_some {s : State} {i : Instr} (h : currentInstr s = some i) : step s = exec i s := by
  simp [step, h]

theorem stepOnce_of_next {s t : State} (h : step s = .next t) : stepOnce s = t := by
  simp [stepOnce, h]

@[simp] theorem stepN_zero (s : State) : stepN 0 s = s := rfl
theorem stepN_succ (k : Nat) (s : State) : stepN (k + 1) s = stepN k (stepOnce s) := rfl

theorem stepN_add (j k : Nat) (s : State) : stepN (j + k) s = stepN k (stepN j s) := by
  induction j generalizing s with
  | zero => simp
  | succ j ih => rw [Nat.succ_add, stepN_succ, stepN_succ, ih]

/-- The host's run takes a next step first. -/
theorem core_run_succ {s t : State} (h : step s = .next t) (k : Nat) :
    Sys2Proof.core.run (k + 1) s = Sys2Proof.core.run k t := by
  have : Sys2Proof.core.step s = .next t := h
  simp only [Host.Core.run, this]

/-- Advancing does not wrap where the pair it passes is inside a bounded store (10_state.md R25). -/
theorem pc_add_two_toNat {s : State} (hw : Memory.wf s.prog = true) (hh : halted s = false) :
    (s.pc + 2).toNat = s.pc.toNat + 2 := by
  rw [Memory.wf_iff] at hw
  simp only [halted, decide_eq_false_iff_not, not_le] at hh
  rw [BitVec.toNat_add]
  exact Nat.mod_eq_of_lt (lt_of_le_of_lt hh hw)

end Sys2Proof.Machine
end

