-- ==== Sys2Proof/Laws/PerInstr.lean ====
section
/-! SUPPORT. The family PairForm: every instruction is one pair of elements, in the one row of the opcode table that its
opcode names (30_encoding.md R60 R61 R70). -/

namespace Sys2Proof.Laws.PairForm

/-- Two elements, and the six-bit view belongs to the rows of the instruction's own opcode and to no other. -/
def Statement (i : Instr) : Prop :=
  (encode i).length = 2 ∧ ∀ r ∈ opcodeTable, r.matches (encodeSixBit i) = true ↔ r.opcode = i.opcode

/-- Whatever the operand, the six-bit view of an opcode belongs to that opcode's row alone. -/
theorem matches_iff (o : Opcode) (x : Element) :
    ∀ r ∈ opcodeTable, r.matches (sixBit (opcodeCode o) x) = true ↔ r.opcode = o := by
  revert x
  cases o <;> decide

theorem adv (x : Combo) : Statement (.adv x) := ⟨rfl, matches_iff .adv _⟩
theorem bxl (x : Element) : Statement (.bxl x) := ⟨rfl, matches_iff .bxl _⟩
theorem bst (x : Combo) : Statement (.bst x) := ⟨rfl, matches_iff .bst _⟩
theorem jnz (x : Combo) : Statement (.jnz x) := ⟨rfl, matches_iff .jnz _⟩
theorem bxc (x : Element) : Statement (.bxc x) := ⟨rfl, matches_iff .bxc _⟩
theorem out (x : Combo) : Statement (.out x) := ⟨rfl, matches_iff .out _⟩
theorem bdv (x : Combo) : Statement (.bdv x) := ⟨rfl, matches_iff .bdv _⟩
theorem cdv (x : Combo) : Statement (.cdv x) := ⟨rfl, matches_iff .cdv _⟩

end Sys2Proof.Laws.PairForm
end

