-- ==== Sys2Proof/Laws/Program.lean ====
section
/-! SUPPORT. Laws of the architectural state and the program it is joined with: each is got back, and a fetch sees both. -/

namespace Sys2Proof.Machine

@[simp] theorem withProgram_a (p : Memory) (x : ArchState) : (withProgram p x).a = x.a := rfl
@[simp] theorem withProgram_b (p : Memory) (x : ArchState) : (withProgram p x).b = x.b := rfl
@[simp] theorem withProgram_c (p : Memory) (x : ArchState) : (withProgram p x).c = x.c := rfl
@[simp] theorem withProgram_pc (p : Memory) (x : ArchState) : (withProgram p x).pc = x.pc := rfl
@[simp] theorem withProgram_prog (p : Memory) (x : ArchState) : (withProgram p x).prog = p := rfl
@[simp] theorem withProgram_out (p : Memory) (x : ArchState) : (withProgram p x).out = x.out := rfl

@[simp] theorem archOf_a (s : State) : (archOf s).a = s.a := rfl
@[simp] theorem archOf_b (s : State) : (archOf s).b = s.b := rfl
@[simp] theorem archOf_c (s : State) : (archOf s).c = s.c := rfl
@[simp] theorem archOf_pc (s : State) : (archOf s).pc = s.pc := rfl
@[simp] theorem archOf_out (s : State) : (archOf s).out = s.out := rfl

@[simp] theorem archOf_withProgram (p : Memory) (x : ArchState) : archOf (withProgram p x) = x := rfl
@[simp] theorem withProgram_archOf (s : State) : withProgram s.prog (archOf s) = s := rfl

/-- A combo operand's value does not depend on the program. -/
theorem comboValue_withProgram (p q : Memory) (c : Combo) (x : ArchState) :
    comboValue c (withProgram p x) = comboValue c (withProgram q x) :=
  comboValue_congr fun r => by cases r <;> rfl

/-- What the step on a program does, in one place: nothing where no pair is fetched, else the instruction's effect. -/
theorem stepOf_cases (p : Memory) (x : ArchState) :
    (currentInstr (withProgram p x) = none ∧ stepOf p x = .next x) ∨
    (∃ i, currentInstr (withProgram p x) = some i ∧ stepOf p x = execArch i x) := by
  cases h : currentInstr (withProgram p x) with
  | none => exact .inl ⟨rfl, by simp only [stepOf, h]⟩
  | some i => exact .inr ⟨i, rfl, by simp only [stepOf, h]⟩

theorem runOf_succ {p : Memory} {x y : ArchState} (h : stepOf p x = .next y) (k : Nat) :
    runOf p (k + 1) x = runOf p k y := by
  simp only [runOf, h]

end Sys2Proof.Machine
end

