-- ==== Sys2Proof/Tests/Slice0.lean ====
section
/-! SUPPORT. Tests: expected results from 95_test_vectors.md (the section stands in each comment) or from the encodings of
30_encoding.md, never from the model; the well-formedness smoke; and for each statement with hypotheses a witness that meets
them. -/

namespace Sys2Proof.Tests

open Sys2Proof.Machine

/-- A small state with an empty output. -/
def st (a b c pc : Nat) (p : List Element) : State :=
  { a := BitVec.ofNat _ a, b := BitVec.ofNat _ b, c := BitVec.ofNat _ c, pc := BitVec.ofNat _ pc, prog := p, out := [] }

/-! ### Decoding: words written out from the encodings (30_encoding.md R61 R66 R70; 95_test_vectors.md L3) -/

theorem test_decode_adv : decodeSixBit 0b000011 = .adv (.lit 3) := by decide
theorem test_decode_bxl : decodeSixBit 0b001100 = .bxl 4 := by decide
theorem test_decode_bst : decodeSixBit 0b010100 = .bst (.reg .a) := by decide
theorem test_decode_jnz : decodeSixBit 0b011101 = .jnz (.reg .b) := by decide
theorem test_decode_bxc : decodeSixBit 0b100100 = .bxc 4 := by decide
theorem test_decode_out : decodeSixBit 0b101111 = .out .reserved := by decide
theorem test_decode_bdv : decodeSixBit 0b110101 = .bdv (.reg .b) := by decide
theorem test_decode_cdv : decodeSixBit 0b111110 = .cdv (.reg .c) := by decide

/-- 95_test_vectors.md L3-2: the trailing element of an odd program is rejected by name. -/
theorem test_decode_trailing : decode [0] = .rejected (.trailingOpcode 0) := by decide
theorem test_decode_nothing : decode [] = .rejected .noElement := by decide
/-- 95_test_vectors.md L3-4: the pair at index 1 of `3,1,5,4` is `Bxl 5`. -/
theorem test_decode_odd_index : decode [1, 5, 4] = .instr (.bxl 5) [4] := by decide
/-- Row Jnz of spec/opcode_table.json: match 24, mask 56. -/
theorem test_table_word : decodeTableWord 8 0o30 = some (.jnz (.lit 0)) := by decide
theorem test_table_word_too_wide : decodeTableWord 8 64 = none := by decide
/-- 30_encoding.md R74. -/
theorem test_assembly : assembly (.out (.reg .a)) = "Out 4" := by decide
theorem test_listing : listing [0, 1, 5, 4, 3, 0] = "0,1,5,4,3,0" := by decide

/-! ### Well-formedness: an ill-formed term for each check (70_reset_and_hazards.md R184; 30_encoding.md R67 R72) -/

theorem test_reserved_adv : (Instr.adv .reserved).wellFormed = false := by decide
theorem test_reserved_bst : (Instr.bst .reserved).wellFormed = false := by decide
theorem test_reserved_jnz : (Instr.jnz .reserved).wellFormed = false := by decide
theorem test_reserved_out : (Instr.out .reserved).wellFormed = false := by decide
theorem test_reserved_bdv : (Instr.bdv .reserved).wellFormed = false := by decide
theorem test_reserved_cdv : (Instr.cdv .reserved).wellFormed = false := by decide
theorem test_literal_seven_is_well_formed : (Instr.bxl 7).wellFormed = true ∧ (Instr.bxc 7).wellFormed = true := by decide
theorem test_odd_length : evenLength [1, 7, 5, 5, 0] = false := by decide
theorem test_even_length : evenLength [0, 1, 5, 4, 3, 0] = true := by decide

/-! ### One step each -/

/-- L2-2: an amount far beyond W gives 0, not the amount modulo W. -/
theorem test_adv_huge_amount : (stepOnce (st (2 ^ 63) 0 (2 ^ 64 - 1) 0 [0, 6])).a = 0 := by decide
/-- L2-2: the largest amount in range with a result that is not zero. -/
theorem test_adv_amount_63 : (stepOnce (st (2 ^ 63) 63 0 0 [0, 5])).a = 1 := by decide
/-- L2-4: only the low bits can change. -/
theorem test_bxl_upper_bits : (stepOnce (st 0 (2 ^ 63 + 1) 0 0 [1, 1])).b = BitVec.ofNat _ (2 ^ 63) := by decide
/-- L2-4: literal 4, not register A. -/
theorem test_bxl_literal : (stepOnce (st 9 1 0 0 [1, 4])).b = 5 := by decide
/-- L2-4. -/
theorem test_bst_mod : (stepOnce (st 0 0 255 0 [2, 6])).b = 7 := by decide
/-- L2-4. -/
theorem test_bst_reserved : (stepOnce (st 0 99 0 0 [2, 7])).b = 0 := by decide
/-- L2-5: the reserved code jumps to 0. -/
theorem test_jnz_reserved : (stepOnce (st 5 0 0 2 [0, 0, 3, 7])).pc = 0 := by decide
/-- L2-5: not taken, the target is ignored. -/
theorem test_jnz_not_taken : (stepOnce (st 0 0 9 0 [3, 6])).pc = 2 := by decide
/-- L2-4: full width. -/
theorem test_bxc_full_width : (stepOnce (st 0 (2 ^ 63) (2 ^ 63 + 5) 0 [4, 0])).b = 5 := by decide
/-- L2-4: the operand is ignored. -/
theorem test_bxc_operand_ignored : (stepOnce (st 0 6 5 0 [4, 3])).b = 3 := by decide
/-- L2-1. -/
theorem test_out_register : (stepOnce (st 9 10 11 0 [5, 6])).out = [3] := by decide
/-- L2-1. -/
theorem test_out_reserved : (stepOnce (st 9 10 11 0 [5, 7])).out = [0] := by decide
/-- L2-3: shift by the old B. -/
theorem test_bdv_old_b : (stepOnce (st 100 2 0 0 [6, 5])).b = 25 := by decide
/-- L2-3: the reserved code copies A (90_conflicts.md C1). -/
theorem test_bdv_reserved_copies : (stepOnce (st 100 7 0 0 [6, 7])).b = 100 := by decide
/-- L2-3: shift by the old C. -/
theorem test_cdv_old_c : (stepOnce (st 100 0 3 0 [7, 6])).c = 12 := by decide
/-- L2-3: amount W. -/
theorem test_cdv_amount_width : (stepOnce (st 5 0 64 0 [7, 6])).c = 0 := by decide

/-- L3-4: a fetch at an odd program counter. -/
theorem test_odd_pc : (stepOnce (st 1 0 0 1 [3, 1, 5, 4])).b = 5 := by decide
/-- L2-6: the rows N = 6, pc = 4, 5 and 1000. -/
theorem test_halt_boundary :
    halted (st 0 0 0 4 [0, 0, 0, 0, 0, 0]) = false ∧ halted (st 0 0 0 5 [0, 0, 0, 0, 0, 0]) = true ∧
    halted (st 0 0 0 1000 [0, 0, 0, 0, 0, 0]) = true := by decide
/-- L2-6: a trailing opcode halts with no trace record. -/
theorem test_trailing_trace : traceOf (st 0 7 0 4 [1, 7, 5, 5, 0]) = none := by decide
/-- L3-1: the record is raw. -/
theorem test_trace : traceOf (st 1 0 0 2 [2, 4, 1, 1]) = some { pc := 2, opcode := 1, operand := 1 } := by decide
/-- 70_reset_and_hazards.md R183, 00_scope.md R8: what a host cannot present. -/
theorem test_launch_refused : launch? [8] 0 0 0 = none ∧ launch? [] (2 ^ 64) 0 0 = none := by decide
/-- L3-5, second start: one step, then the end of the run. -/
theorem test_host_run_ends : hostRun 1 (st 0 0 0 0 [3, 0]) = .ended (st 0 0 0 2 [3, 0]) := by decide
/-- L3-5, first start: a host with a ceiling stops it without an end of run. -/
theorem test_host_run_stops : hostRun 1 (st 1 0 0 0 [3, 0]) = .stopped (st 1 0 0 0 [3, 0]) := by decide
/-- The first step after reset runs the word placed: `Out 3` appends 3 (43_output.md R140). -/
theorem test_placed_word : (stepOnce (State.reset.withFetchWord 8 0o53)).out = [3] := by decide

/-- L2-3 with the program as the step's parameter (20_memory.md R49): `Bdv 5`, shift by the old B. -/
theorem test_step_of_program : stepOf [6, 5] ⟨100, 2, 0, 0, []⟩ = .next ⟨100, 25, 0, 2, []⟩ := rfl

/-! ### Witnesses: hypotheses of the statements, met -/

theorem witness_adv_amount_at_width : Config.W ≤ (comboValue (.reg .b) (st 729 64 0 0 [])).toNat := by decide
theorem witness_bdv_amount_at_width : Config.W ≤ (comboValue (.reg .c) (st 729 0 64 0 [])).toNat := by decide
theorem witness_bdv_other_operand : Combo.lit 3 ≠ .reg .b := by decide
theorem witness_cdv_amount_at_width : Config.W ≤ (comboValue (.reg .c) (st 729 0 64 0 [])).toNat := by decide
theorem witness_shifter_small_value : (7 : Word).toNat < 2 ^ 3 ∧ Config.W ≤ 64 := by decide
theorem witness_bxc_zero_and_equal : (st 0 42 0 0 []).c = 0 ∧ (st 0 9 9 0 []).b = (st 0 9 9 0 []).c := by decide

theorem witness_jnz_taken_and_not : (st 364 0 0 4 []).a ≠ 0 ∧ (st 0 0 0 4 []).a = 0 := by decide
theorem witness_jnz_to_itself :
    currentInstr (st 1 0 0 0 [3, 0]) = some (.jnz (.lit 0)) ∧ (st 1 0 0 0 [3, 0]).a ≠ 0 ∧
    comboValue (.lit 0) (st 1 0 0 0 [3, 0]) = (st 1 0 0 0 [3, 0]).pc := by decide
/-- A jump to the last index of a program meets the halting clause, and one to an odd index the clause of a pair there. -/
theorem witness_jnz_after_the_jump :
    exec (.jnz (.lit 3)) (st 1 0 0 0 [3, 3, 5, 4]) = .next (st 1 0 0 3 [3, 3, 5, 4]) ∧
    (st 1 0 0 3 [3, 3, 5, 4]).prog.length ≤ (st 1 0 0 3 [3, 3, 5, 4]).pc.toNat + 1 ∧
    exec (.jnz (.lit 1)) (st 1 0 0 0 [3, 1, 5, 4]) = .next (st 1 0 0 1 [3, 1, 5, 4]) ∧
    Memory.element? (st 1 0 0 1 [3, 1, 5, 4]).prog 1 = some 1 ∧
    Memory.element? (st 1 0 0 1 [3, 1, 5, 4]).prog 2 = some 5 :=
  ⟨rfl, by decide, rfl, by decide, by decide⟩

theorem witness_step_pair_and_halt :
    Memory.element? (st 0 0 0 4 [0, 1, 5, 4, 3, 0]).prog 4 = some 3 ∧
    Memory.element? (st 0 0 0 4 [0, 1, 5, 4, 3, 0]).prog 5 = some 0 ∧
    decode ((st 0 0 0 4 [0, 1, 5, 4, 3, 0]).prog.drop 4) = .instr (.jnz (.lit 0)) [] ∧
    (st 0 0 0 5 [0, 1, 5, 4, 3, 0]).prog.length ≤ (st 0 0 0 5 [0, 1, 5, 4, 3, 0]).pc.toNat + 1 := by decide
theorem witness_trailing_opcode : (st 0 7 0 4 [1, 7, 5, 5, 0]).prog.length = (st 0 7 0 4 [1, 7, 5, 5, 0]).pc.toNat + 1 := by
  decide
theorem witness_single_element_program : (⟨[0], 1, 2, 3⟩ : Launch).prog.length ≤ 1 := by decide
theorem witness_halted : halted (st 0 0 0 6 [0, 1, 5, 4, 3, 0]) = true := by decide
theorem witness_pc_update :
    currentInstr (st 0 0 0 0 [3, 0]) = some (.jnz (.lit 0)) ∧ (st 0 0 0 0 [3, 0]).a = 0 ∧
    currentInstr (st 0 0 0 0 [5, 4]) = some (.out (.reg .a)) ∧ (Instr.out (.reg .a)).opcode ≠ .jnz := by decide
/-- The pair at the very end of a program: the program counter moves to `N`. -/
theorem witness_pc_never_wraps :
    StoreInv (st 0 13 0 2 [0, 1, 1, 6]) ∧ halted (st 0 13 0 2 [0, 1, 1, 6]) = false ∧
    step (st 0 13 0 2 [0, 1, 1, 6]) = .next (st 0 11 0 4 [0, 1, 1, 6]) :=
  ⟨by unfold StoreInv; decide, by decide, rfl⟩
theorem witness_register_ports :
    writes (.bdv (.lit 0)) .a = false ∧ writes (.bdv (.lit 0)) .b = true ∧ reads (.bdv (.lit 0)) .b = false := by decide
theorem witness_not_out : currentInstr (st 9 0 0 0 [5, 4]) = some (.out (.reg .a)) ∧
    ∀ x, currentInstr (st 9 0 0 0 [0, 4]) ≠ some (.out x) := by
  refine ⟨by decide, fun x h => ?_⟩
  have e : currentInstr (st 9 0 0 0 [0, 4]) = some (.adv (.reg .a)) := by decide
  rw [e] at h
  cases h
theorem witness_launch :
    launch? [0, 7] (2 ^ 64 - 1) 0 5 = some ⟨[0, 7], BitVec.ofNat _ (2 ^ 64 - 1), 0, 5⟩ := by decide
theorem witness_nat_core_in_range : (3 : Nat) ≤ 3 ∧ NatCore.InRange 3 ⟨7, 7, 7, 7, [0, 6, 6, 5, 7, 6, 4], []⟩ := by
  unfold NatCore.InRange
  decide
theorem witness_store_inv_step :
    StoreInv (st 9 0 0 0 [7, 1]) ∧ step (st 9 0 0 0 [7, 1]) = .next (st 9 0 4 2 [7, 1]) :=
  ⟨by unfold StoreInv; decide, rfl⟩
theorem witness_even_inv_step :
    EvenInv (st 364 0 0 4 [0, 1, 5, 4, 3, 0]) ∧
    step (st 364 0 0 4 [0, 1, 5, 4, 3, 0]) = .next (st 364 0 0 0 [0, 1, 5, 4, 3, 0]) :=
  ⟨by unfold EvenInv; decide, rfl⟩
theorem witness_even_inv_halted :
    EvenInv (st 0 0 0 6 [0, 1, 5, 4, 3, 0]) ∧ halted (st 0 0 0 6 [0, 1, 5, 4, 3, 0]) = true :=
  ⟨by unfold EvenInv; decide, by decide⟩
theorem witness_ends_after : EndsAfter 1 (st 0 0 0 0 [3, 0]) (st 0 0 0 2 [3, 0]) := by
  refine ⟨fun j hj => ?_, by decide, by decide⟩
  obtain rfl : j = 0 := by omega
  decide
/-- The end by the trailing element of a program of odd length, at `pc = N - 1`, after one executed instruction. -/
theorem witness_ends_at_trailing_opcode : EndsAfter 1 (st 0 0 0 0 [1, 7, 0]) (st 0 7 0 2 [1, 7, 0]) := by
  refine ⟨fun j hj => ?_, by decide, by decide⟩
  obtain rfl : j = 0 := by omega
  decide
theorem witness_event_changes_the_program :
    (hostEvent (.reset ⟨[5, 4], 1, 2, 3⟩) (st 0 0 0 0 [3, 0])).prog ≠ (st 0 0 0 0 [3, 0]).prog := by decide
theorem witness_never_ends : NeverEnds (st 1 0 0 0 [3, 0]) := by
  have h : stepOnce (st 1 0 0 0 [3, 0]) = st 1 0 0 0 [3, 0] := by decide
  intro k
  induction k with
  | zero => decide
  | succ k ih => rwa [stepN_succ, h]
theorem witness_trace : traceOf (st 1 0 0 1 [3, 1, 5, 4]) = some ⟨1, 1, 5⟩ := by decide
/-- `Out 0` and then the end: no reserved code is met, and the first step has a record. -/
theorem witness_well_formed_run :
    WellFormedRun (st 0 0 0 0 [5, 0]) ∧ traceOf (stepN 0 (st 0 0 0 0 [5, 0])) = some ⟨0, 5, 0⟩ := by
  have h : ∀ k, currentInstr (stepN k (stepOnce (st 0 0 0 0 [5, 0]))) = none := by
    have e : stepOnce (stepOnce (st 0 0 0 0 [5, 0])) = stepOnce (st 0 0 0 0 [5, 0]) := by decide
    intro k
    induction k with
    | zero => decide
    | succ k ih => rwa [stepN_succ, e]
  refine ⟨⟨by decide, fun k i hi => ?_⟩, by decide⟩
  cases k with
  | zero =>
    have e : currentInstr (stepN 0 (st 0 0 0 0 [5, 0])) = some (.out (.lit 0)) := by decide
    rw [e] at hi
    cases hi
    decide
  | succ k =>
    rw [stepN_succ, h k] at hi
    cases hi
theorem witness_bank :
    ([(1, 2, 3), (4, 5, 6)] : List (Word × Word × Word))[1]? = some (4, 5, 6) ∧
    (∀ e ∈ [((1 : Nat), HostEvent.step), (0, .step)], e.2 = .step) ∧
    (Bank.run [(1, .step), (0, .step)] (Bank.launch [5, 4] [(1, 2, 3), (4, 5, 6)])).length = 2 := by decide
theorem witness_placed_word :
    (63 : Nat) < 64 ∧ StoreInv (st 0 0 0 3 [5, 0]) ∧ (st 0 0 0 3 [5, 0]).pc.toNat + 2 < 2 ^ Config.W ∧
    (0 : Nat) < (st 0 0 0 3 [5, 0]).prog.length ∧ (0 : Nat) < (st 0 0 0 3 [5, 0]).pc.toNat := by
  unfold StoreInv
  decide

end Sys2Proof.Tests
end

/-! PROOFS of the family 10_state: the registers, the program counter, the program store and the output.
Everything rests on one equation, `exec_eq_effect`: each instruction's effect, field by field. -/

namespace Sys2Proof.Machine

/-! ### The effect of an instruction, field by field -/

/-- The value an instruction puts in the register it writes; 0 for the two that write none. -/
def resultOf (i : Instr) (s : State) : Word :=
  match i with
  | .adv x => shiftRight s.a (comboValue x s).toNat
  | .bxl x => s.b ^^^ zext x
  | .bst x => zext (low3 (comboValue x s))
  | .jnz _ => 0
  | .bxc _ => s.b ^^^ s.c
  | .out _ => 0
  | .bdv x => shiftRight s.a (comboValue x s).toNat
  | .cdv x => shiftRight s.a (comboValue x s).toNat

/-- The program counter an instruction leaves (10_state.md R24). -/
def nextPc (i : Instr) (s : State) : Word :=
  match i with
  | .jnz x => if s.a = 0 then s.pc + 2 else comboValue x s
  | _ => s.pc + 2

/-- The elements an instruction appends to the output: one for Out, none for the others (10_state.md R31). -/
def appendedBy (i : Instr) (s : State) : List Element :=
  match i with
  | .out x => [low3 (comboValue x s)]
  | _ => []

/-- What a register holds after an instruction: the result in the write port, the old value elsewhere (10_state.md R21). -/
def regAfter (i : Instr) (s : State) (r : Reg) : Word := if writes i r then resultOf i s else readReg r s

/-- The state an instruction leaves. -/
def effect (i : Instr) (s : State) : State :=
  { a := regAfter i s .a, b := regAfter i s .b, c := regAfter i s .c, pc := nextPc i s, prog := s.prog,
    out := s.out ++ appendedBy i s }

@[simp] theorem effect_pc (i : Instr) (s : State) : (effect i s).pc = nextPc i s := rfl
@[simp] theorem effect_prog (i : Instr) (s : State) : (effect i s).prog = s.prog := rfl
@[simp] theorem effect_out (i : Instr) (s : State) : (effect i s).out = s.out ++ appendedBy i s := rfl
theorem readReg_effect (i : Instr) (s : State) (r : Reg) : readReg r (effect i s) = regAfter i s r := by
  cases r <;> rfl

theorem readReg_effect_of_writes {i : Instr} {r : Reg} (h : writes i r = true) (s : State) :
    readReg r (effect i s) = resultOf i s := by
  rw [readReg_effect, regAfter, if_pos h]

theorem readReg_effect_of_not_writes {i : Instr} {r : Reg} (h : writes i r = false) (s : State) :
    readReg r (effect i s) = readReg r s := by
  rw [readReg_effect, regAfter, if_neg (by simp [h])]

theorem nextPc_jnz_taken {s : State} (h : s.a ≠ 0) (x : Combo) : nextPc (.jnz x) s = comboValue x s := if_neg h
theorem nextPc_jnz_not_taken {s : State} (h : s.a = 0) (x : Combo) : nextPc (.jnz x) s = s.pc + 2 := if_pos h

/-- The effect of an instruction that appends nothing leaves the output as it is. -/
theorem effect_of_appendedBy_eq_nil {i : Instr} {s : State} (h : appendedBy i s = []) :
    effect i s = { effect i s with out := s.out } := by
  simp only [effect, h, List.append_nil]

/-- Executing an instruction completes, and leaves exactly its effect. -/
theorem exec_eq_effect (i : Instr) (s : State) : exec i s = .next (effect i s) := by
  cases i with
  | out x => rfl
  | jnz x =>
    rw [effect_of_appendedBy_eq_nil rfl]
    by_cases ha : s.a = 0
    · simp only [exec_jnz_not_taken ha, effect, nextPc_jnz_not_taken ha]
      rfl
    · simp only [exec_jnz_taken ha, effect, nextPc_jnz_taken ha]
      rfl
  | _ =>
    rw [effect_of_appendedBy_eq_nil rfl]
    rfl

theorem nextPc_of_ne_jnz {i : Instr} (h : i.opcode ≠ .jnz) (s : State) : nextPc i s = s.pc + 2 := by
  cases i with
  | jnz x => exact absurd rfl h
  | _ => rfl

theorem appendedBy_of_ne_out {i : Instr} (h : ∀ x, i ≠ .out x) (s : State) : appendedBy i s = [] := by
  cases i with
  | out x => exact absurd rfl (h x)
  | _ => rfl

/-! ### The step -/

theorem halted_iff_currentInstr_eq_none (s : State) : halted s = true ↔ currentInstr s = none := by
  rcases fetch_cases s with ⟨hh, hc, -⟩ | ⟨o, x, hh, -, -, hc, -⟩ <;> simp [hh, hc]

theorem stepOnce_of_none {s : State} (h : currentInstr s = none) : stepOnce s = s :=
  stepOnce_of_next (step_of_none h)

theorem stepOnce_of_some {s : State} {i : Instr} (h : currentInstr s = some i) : stepOnce s = effect i s :=
  stepOnce_of_next ((step_of_some h).trans (exec_eq_effect i s))

/-- Every step ends in a next state (60_exceptions.md R160). -/
theorem step_eq_next_stepOnce (s : State) : step s = .next (stepOnce s) := by
  cases h : currentInstr s with
  | none => rw [stepOnce_of_none h, step_of_none h]
  | some i => rw [stepOnce_of_some h, step_of_some h, exec_eq_effect]

/-- Settles O23: a halting step leaves the state, and every other one leaves the `nextPc` of its instruction. -/
theorem programCounterUpdate : Obligations.ProgramCounterUpdate := by
  intro s
  refine ⟨stepOnce s, step_eq_next_stepOnce s, fun hh => ?_, fun x hx ha => ?_, fun x hx ha => ?_, fun i hi hj => ?_⟩
  · rw [stepOnce_of_none ((halted_iff_currentInstr_eq_none s).mp hh)]
  · rw [stepOnce_of_some hx, effect_pc, nextPc_jnz_taken ha]
  · rw [stepOnce_of_some hx, effect_pc, nextPc_jnz_not_taken ha]
  · rw [stepOnce_of_some hi, effect_pc, nextPc_of_ne_jnz hj]

/-! ### Read and write ports (10_state.md R21) -/

/-- Two states hold the same in every register that `i` reads. -/
def AgreeOnReads (i : Instr) (s t : State) : Prop := ∀ r, reads i r = true → readReg r s = readReg r t

theorem reads_of_combo? {i : Instr} {r : Reg} (h : i.combo? = some (.reg r)) : reads i r = true := by
  simp [reads, h]

/-- No instruction has two write ports. -/
theorem writes_unique {i : Instr} {r q : Reg} (hr : writes i r = true) (hq : writes i q = true) : r = q := by
  cases i <;> simp_all [writes]

/-- A write to a register that `i` does not read is not seen by `i`. -/
theorem agreeOnReads_writeReg {i : Instr} {r : Reg} (h : reads i r = false) (v : Word) (s : State) :
    AgreeOnReads i (writeReg r v s) s := by
  intro q hq
  refine readReg_writeReg_of_ne (fun e => ?_) v s
  rw [e, h] at hq
  cases hq

section
variable {i : Instr} {s t : State} (h : AgreeOnReads i s t)
include h

theorem AgreeOnReads.comboValue_eq {x : Combo} (hx : i.combo? = some x) : comboValue x s = comboValue x t := by
  cases x with
  | lit v => rfl
  | reg r => exact h r (reads_of_combo? hx)
  | reserved => rfl

theorem AgreeOnReads.resultOf_eq : resultOf i s = resultOf i t := by
  cases i with
  | adv x | bdv x | cdv x =>
    have ha : s.a = t.a := h .a rfl
    simp only [resultOf, ha, h.comboValue_eq rfl]
  | bxl x =>
    have hb : s.b = t.b := h .b rfl
    simp only [resultOf, hb]
  | bst x => simp only [resultOf, h.comboValue_eq rfl]
  | jnz x | out x => rfl
  | bxc x =>
    have hb : s.b = t.b := h .b rfl
    have hc : s.c = t.c := h .c rfl
    simp only [resultOf, hb, hc]

theorem AgreeOnReads.nextPc_eq (hpc : s.pc = t.pc) : nextPc i s = nextPc i t := by
  cases i with
  | jnz x =>
    have ha : s.a = t.a := h .a rfl
    simp only [nextPc, ha, hpc, h.comboValue_eq rfl]
  | _ => simp only [nextPc, hpc]

theorem AgreeOnReads.appendedBy_eq : appendedBy i s = appendedBy i t := by
  cases i with
  | out x => simp only [appendedBy, h.comboValue_eq rfl]
  | _ => rfl

end

/-- Settles O28: the effect writes the result to the write port alone, and a write to a register that is not read leaves
the result, the next program counter and the appended elements as they are. -/
theorem registerPortsOfEveryInstruction : Obligations.RegisterPortsOfEveryInstruction := by
  intro i s
  refine ⟨effect i s, exec_eq_effect i s, fun r hr => readReg_effect_of_not_writes hr s,
    fun r q hr hq => writes_unique hr hq, fun r v hr => ?_⟩
  have agree := agreeOnReads_writeReg hr v s
  refine ⟨effect i (writeReg r v s), exec_eq_effect i _, ?_, ?_, ?_, fun q hq => ?_⟩
  · exact agree.nextPc_eq (writeReg_pc r v s)
  · rw [effect_out, effect_out, writeReg_out, agree.appendedBy_eq]
  · rw [effect_prog, effect_prog, writeReg_prog]
  · rw [readReg_effect_of_writes hq, readReg_effect_of_writes hq, agree.resultOf_eq]

/-! ### The program store (10_state.md R30) -/

@[simp] theorem stepOnce_prog (s : State) : (stepOnce s).prog = s.prog := by
  cases h : currentInstr s with
  | none => rw [stepOnce_of_none h]
  | some i => rw [stepOnce_of_some h, effect_prog]

@[simp] theorem stepN_prog (k : Nat) (s : State) : (stepN k s).prog = s.prog := by
  induction k generalizing s with
  | zero => rfl
  | succ k ih => rw [stepN_succ, ih, stepOnce_prog]

/-- Settles O29: no effect and no step touches the program, so no run from a launch does. -/
theorem programStoreIsReadOnly : Obligations.ProgramStoreIsReadOnly := by
  refine ⟨fun i s => ⟨effect i s, exec_eq_effect i s, ?_, fun k => ?_⟩, fun l k => ?_⟩
  · rw [effect_prog]
  · rw [effect_prog]
  · rw [stepN_prog, boot_prog]

/-! ### The output (10_state.md R31) -/

theorem outData_of_none {s : State} (h : currentInstr s = none) : outData s = none := by
  simp only [outData, h]

/-- What a step shows on `out_data` is what its instruction appends. -/
theorem outData_toList_of_some {s : State} {i : Instr} (h : currentInstr s = some i) :
    (outData s).toList = appendedBy i s := by
  unfold outData
  rw [h]
  cases i <;> rfl

/-- An instruction reads no output: another one is carried through, and the same elements are appended to it. -/
theorem effect_withOut (i : Instr) (s : State) (o : List Element) :
    effect i { s with out := o } = { effect i s with out := o ++ appendedBy i s } := by
  have agree : AgreeOnReads i { s with out := o } s := fun r _ => by cases r <;> rfl
  have hreg : ∀ r, regAfter i { s with out := o } r = regAfter i s r := by
    intro r
    rw [regAfter, regAfter, agree.resultOf_eq]
    cases r <;> rfl
  simp only [effect, hreg, agree.nextPc_eq rfl, agree.appendedBy_eq]

theorem stepOnce_withOut (s : State) (o : List Element) :
    stepOnce { s with out := o } = { stepOnce s with out := o ++ (outData s).toList } := by
  have fetch : currentInstr { s with out := o } = currentInstr s := rfl
  cases h : currentInstr s with
  | none => simp [stepOnce_of_none h, stepOnce_of_none (fetch.trans h), outData_of_none h]
  | some i =>
    rw [stepOnce_of_some h, stepOnce_of_some (fetch.trans h), effect_withOut, outData_toList_of_some h]

theorem emitted_succ (k : Nat) (s : State) : emitted (k + 1) s = (outData s).toList ++ emitted k (stepOnce s) := rfl

/-- A run from another starting output takes the same steps and appends the same elements to it. -/
theorem stepN_withOut (k : Nat) (s : State) (o : List Element) :
    stepN k { s with out := o } = { stepN k s with out := o ++ emitted k s } := by
  induction k generalizing s o with
  | zero => simp [emitted]
  | succ k ih => rw [stepN_succ, stepOnce_withOut, ih, stepN_succ, emitted_succ, List.append_assoc]

theorem stepOnce_out (s : State) : (stepOnce s).out = s.out ++ (outData s).toList :=
  congrArg State.out (stepOnce_withOut s s.out)

theorem stepN_out (k : Nat) (s : State) : (stepN k s).out = s.out ++ emitted k s :=
  congrArg State.out (stepN_withOut k s s.out)

/-- The output grows by nothing where the step executes no Out. -/
theorem outData_toList_of_ne_out {s : State} (h : ∀ x, currentInstr s ≠ some (.out x)) : (outData s).toList = [] := by
  cases hc : currentInstr s with
  | none => rw [outData_of_none hc, Option.toList_none]
  | some i =>
    rw [outData_toList_of_some hc]
    exact appendedBy_of_ne_out (fun x e => h x (by rw [hc, e])) s

/-- Settles O30: a step appends what `outData` tells, a run appends what it emits, and both carry any other starting output
through unread. -/
theorem outputIsAppendOnlyAndNeverRead : Obligations.OutputIsAppendOnlyAndNeverRead := by
  intro s
  refine ⟨⟨stepOnce s, step_eq_next_stepOnce s, fun x hx => ?_, fun h => ?_⟩, fun k => ?_, fun o k => ?_⟩
  · exact ⟨low3 (comboValue x s), by rw [stepOnce_out, outData_toList_of_some hx]; rfl⟩
  · rw [stepOnce_out, outData_toList_of_ne_out h, List.append_nil]
  · rw [stepN_out]
    exact List.prefix_append ..
  · rw [stepN_withOut]

end Sys2Proof.Machine

/-! PROOFS of the family 30_encoding: the operand multiplexer and the 64 six-bit words. A word is its two elements, and the
facts about a word are facts about the instruction `decodePair` makes of them. -/

namespace Sys2Proof.Machine

/-! ### The operand multiplexer (30_encoding.md R66) -/

/-- Settles O10: the eight raw codes are the codes of the eight combo operands. -/
theorem comboMultiplexerTable : Obligations.ComboMultiplexerTable := by
  intro s
  have row (x : Combo) : comboValue (comboOf (comboCode x)) s = comboValue x s := by rw [comboOf_comboCode]
  exact ⟨row (.lit 0), row (.lit 1), row (.lit 2), row (.lit 3), row (.reg .a), row (.reg .b), row (.reg .c),
    row .reserved⟩

theorem comboOf_eq_reserved_iff (x : Element) : comboOf x = .reserved ↔ x = 7 := by
  revert x; decide

/-! ### The instruction of a pair (30_encoding.md R70 R73) -/

@[simp] theorem decodePair_opcode (o x : Element) : (decodePair o x).opcode = opcodeOf o := by
  unfold decodePair
  cases opcodeOf o <;> rfl

@[simp] theorem operandCode_decodePair (o x : Element) : operandCode (decodePair o x) = x := by
  unfold decodePair
  cases opcodeOf o <;> simp [operandCode]

/-- A pair has the multiplexer's operand where its opcode's mode is combo, and none elsewhere (30_encoding.md R64). -/
theorem decodePair_combo? (o x : Element) :
    (decodePair o x).combo? = if (opcodeOf o).mode = .combo then some (comboOf x) else none := by
  unfold decodePair
  cases opcodeOf o <;> rfl

/-- The ill-formed pairs are the combo-mode opcodes with operand 7 (30_encoding.md R67 R72). -/
theorem decodePair_wellFormed_eq_false_iff (o x : Element) :
    (decodePair o x).wellFormed = false ↔ (opcodeOf o).mode = .combo ∧ x = 7 := by
  rw [Instr.wellFormed, decodePair_combo?]
  split
  next hm => simp [hm, comboOf_eq_reserved_iff]
  next hm => simp [hm]

/-- A combo-mode opcode sees its operand through the operand's value alone. -/
theorem exec_decodePair_congr {o x y : Element} {s : State} (hm : (opcodeOf o).mode = .combo)
    (h : comboValue (comboOf x) s = comboValue (comboOf y) s) : exec (decodePair o x) s = exec (decodePair o y) s := by
  unfold decodePair
  cases ho : opcodeOf o with
  | bxl | bxc =>
    rw [ho] at hm
    cases hm
  | adv | bdv | cdv => simp only [exec_adv, exec_bdv, exec_cdv, shiftInto_eq, h]
  | bst => simp only [exec_bst, h]
  | jnz => simp only [exec_jnz, h]
  | out => simp only [exec_out, h]

/-- The reserved operand 7 acts as operand 0 under every combo-mode opcode (30_encoding.md R67). -/
theorem exec_decodePair_seven {o : Element} (hm : (opcodeOf o).mode = .combo) (s : State) :
    exec (decodePair o 7) s = exec (decodePair o 0) s :=
  have ⟨h0, _, _, _, _, _, _, h7⟩ := comboMultiplexerTable s
  exec_decodePair_congr hm (h7.trans h0.symm)

/-- Bxc executes alike whatever its operand (41_bitwise.md R112). -/
theorem exec_bxc_eq (x y : Element) (s : State) : exec (.bxc x) s = exec (.bxc y) s := by
  rw [exec_bxc, exec_bxc]

/-! ### The six-bit words (30_encoding.md R61 R72) -/

/-- Every six-bit word is the view of its two elements. -/
theorem exists_sixBit_eq (w : SixBit) : ∃ o x, sixBit o x = w := by
  refine ⟨w.extractLsb' 3 3, w.extractLsb' 0 3, ?_⟩
  revert w; decide

/-- The table's mask keeps the opcode and clears the operand. -/
theorem sixBit_and_mask (o x : Element) : sixBit o x &&& 0o70 = sixBit o 0 := by
  revert o x; decide

/-- The six encodings R72 lists are those of a combo-mode opcode with operand 7. -/
theorem sixBit_mem_reserved_iff (o x : Element) :
    sixBit o x ∈ ([0o07, 0o27, 0o37, 0o57, 0o67, 0o77] : List SixBit) ↔ (opcodeOf o).mode = .combo ∧ x = 7 := by
  revert o x; decide

/-- The rows of the opcode table that a word matches are one row, its opcode's. -/
theorem matching_rows (o x : Element) :
    ((opcodeTable.filter fun r => r.matches (sixBit o x)).map fun r => r.opcode) = [opcodeOf o] := by
  have own_row : ∀ r ∈ opcodeTable, r.matches (sixBit o x) = decide (r.opcode = opcodeOf o) := by
    intro r hr
    have h := Laws.PairForm.matches_iff (opcodeOf o) x r hr
    rw [opcodeCode_opcodeOf] at h
    rw [Bool.eq_iff_iff, h, decide_eq_true_iff]
  rw [List.filter_congr own_row]
  cases opcodeOf o <;> rfl

/-- Settles O12: each word is the view of a pair, whose row, operand and reserved code the lemmas above give. -/
theorem everySixBitWordDecodesOnce : Obligations.EverySixBitWordDecodesOnce := by
  refine ⟨fun w => ?_, fun w hw s => ?_, fun x y s => ?_⟩
  · obtain ⟨o, x, rfl⟩ := exists_sixBit_eq w
    rw [decodeSixBit_sixBit, decodePair_opcode, operandCode_decodePair, sixBit_operand]
    exact ⟨matching_rows o x, rfl,
      (decodePair_wellFormed_eq_false_iff o x).trans (sixBit_mem_reserved_iff o x).symm⟩
  · obtain ⟨o, x, rfl⟩ := exists_sixBit_eq w
    obtain ⟨hm, rfl⟩ := (sixBit_mem_reserved_iff o x).mp hw
    rw [sixBit_and_mask, decodeSixBit_sixBit, decodeSixBit_sixBit, exec_decodePair_seven hm]
  · rw [decodeSixBit_sixBit, decodeSixBit_sixBit]
    exact exec_bxc_eq x y s

end Sys2Proof.Machine

/-! PROOFS of the family 40_shift: the shifter, and Adv, Bdv and Cdv, which put the one shifted value `shiftedA` in A, B and
C. What the shift is, the corner cases of its operand and the frame are said once; each instruction's proof cites them. -/

namespace Sys2Proof.Machine

/-! ### The shifter (40_shift.md R101) -/

theorem shiftRight_zero (v : Word) : shiftRight v 0 = v := BitVec.ushiftRight_zero v

theorem shiftRight_eq_zero_of_lt {v : Word} {n : Nat} (h : v.toNat < 2 ^ n) : shiftRight v n = 0 := by
  apply BitVec.eq_of_toNat_eq
  rw [shiftRight_toNat, Nat.div_eq_of_lt h]
  rfl

theorem shiftRight_eq_zero_of_width_le {n : Nat} (h : Config.W ≤ n) (v : Word) : shiftRight v n = 0 :=
  shiftRight_eq_zero_of_lt (v.isLt.trans_le (Nat.pow_le_pow_right Nat.two_pos h))

/-- A value shifted by itself is 0, for `v < 2^v`: what operand A does (40_shift.md R100). -/
theorem shiftRight_self (v : Word) : shiftRight v v.toNat = 0 := shiftRight_eq_zero_of_lt Nat.lt_two_pow_self

theorem shiftRight_toNat_le (v : Word) (n : Nat) : (shiftRight v n).toNat ≤ v.toNat := by
  rw [shiftRight_toNat]
  exact Nat.div_le_self _ _

/-! ### The value the three shifts write (40_shift.md R100 R102 R103) -/

/-- The old A shifted by the value of the combo operand. -/
def shiftedA (x : Combo) (s : State) : Word := shiftRight s.a (comboValue x s).toNat

theorem shiftedA_toNat (x : Combo) (s : State) : (shiftedA x s).toNat = s.a.toNat / 2 ^ (comboValue x s).toNat :=
  shiftRight_toNat _ _

/-- By a register, the old value of that register is the amount (10_state.md R27). -/
theorem shiftedA_toNat_of_reg {x : Combo} {r : Reg} (h : x = .reg r) (s : State) :
    (shiftedA x s).toNat = s.a.toNat / 2 ^ (readReg r s).toNat := by
  rw [h, shiftedA_toNat, comboValue_reg]

/-- Operand 0 and the reserved code shift by 0. -/
theorem shiftedA_eq_a {x : Combo} (h : x = .lit 0 ∨ x = .reserved) (s : State) : shiftedA x s = s.a := by
  rcases h with rfl | rfl <;> exact shiftRight_zero s.a

theorem shiftedA_of_reg_a {x : Combo} (h : x = .reg .a) (s : State) : shiftedA x s = 0 := by
  rw [h]
  exact shiftRight_self s.a

theorem shiftedA_of_width_le {x : Combo} {s : State} (h : Config.W ≤ (comboValue x s).toNat) : shiftedA x s = 0 :=
  shiftRight_eq_zero_of_width_le h s.a

/-- Only operand B lets the old B into the value Bdv writes. -/
theorem shiftedA_withB {x : Combo} (h : x ≠ .reg .b) (v : Word) (s : State) :
    shiftedA x { s with b := v } = shiftedA x s := by
  have not_read : reads (.bdv x) .b = false := by simp [reads, Instr.combo?, h]
  exact (agreeOnReads_writeReg not_read v s).resultOf_eq

/-! ### The registers after a shift -/

@[simp] theorem readReg_shiftInto_self (dst : Reg) (x : Combo) (s : State) :
    readReg dst (shiftInto dst x s) = shiftedA x s := by
  rw [shiftInto_eq, readReg_advance, readReg_writeReg_self, shiftedA]

theorem readReg_shiftInto_of_ne {q dst : Reg} (h : q ≠ dst) (x : Combo) (s : State) :
    readReg q (shiftInto dst x s) = readReg q s := by
  rw [shiftInto_eq, readReg_advance, readReg_writeReg_of_ne h]

/-! ### The obligations -/

/-- Settles O1: Adv is `shiftInto .a`, so A holds `shiftedA` and the rest is the frame of `shiftInto`. -/
theorem advShiftsAByCombo : Obligations.AdvShiftsAByCombo := by
  intro x s
  have result : (shiftInto .a x s).a = shiftedA x s := readReg_shiftInto_self .a x s
  refine ⟨rfl, sixBit_and_mask 0 (comboCode x), shiftInto .a x s, exec_adv x s, ?_⟩
  rw [result]
  exact ⟨shiftedA_toNat x s, fun hx => shiftedA_eq_a hx s, fun hx => shiftedA_of_reg_a hx s, shiftedA_of_width_le,
    shiftInto_pc .a x s, readReg_shiftInto_of_ne (q := .b) (by decide) x s,
    readReg_shiftInto_of_ne (q := .c) (by decide) x s, shiftInto_out .a x s, shiftInto_prog .a x s⟩

/-- Settles O2: Bdv is `shiftInto .b`, so B holds `shiftedA`, into which only operand B lets the old B. -/
theorem bdvShiftsAIntoB : Obligations.BdvShiftsAIntoB := by
  intro x s
  have result (s : State) : (shiftInto .b x s).b = shiftedA x s := readReg_shiftInto_self .b x s
  refine ⟨rfl, sixBit_and_mask 6 (comboCode x), shiftInto .b x s, exec_bdv x s, ?_⟩
  rw [result]
  refine ⟨shiftedA_toNat x s, fun hx => shiftedA_eq_a hx s, fun hx => shiftedA_toNat_of_reg hx s,
    fun hx => shiftedA_of_reg_a hx s, shiftedA_of_width_le, fun hx v => ?_,
    shiftInto_pc .b x s, readReg_shiftInto_of_ne (q := .a) (by decide) x s,
    readReg_shiftInto_of_ne (q := .c) (by decide) x s, shiftInto_out .b x s, shiftInto_prog .b x s⟩
  exact ⟨shiftInto .b x { s with b := v }, exec_bdv x _, (result _).trans (shiftedA_withB hx v s)⟩

/-- Settles O3: Cdv is `shiftInto .c`, so C holds `shiftedA` of the old registers, the old C among them. -/
theorem cdvShiftsAIntoC : Obligations.CdvShiftsAIntoC := by
  intro x s
  have result : (shiftInto .c x s).c = shiftedA x s := readReg_shiftInto_self .c x s
  refine ⟨rfl, sixBit_and_mask 7 (comboCode x), shiftInto .c x s, exec_cdv x s, ?_⟩
  rw [result]
  exact ⟨shiftedA_toNat x s, fun hx => shiftedA_eq_a hx s, fun hx => shiftedA_toNat_of_reg hx s,
    fun hx => shiftedA_of_reg_a hx s, shiftedA_of_width_le, shiftInto_pc .c x s,
    readReg_shiftInto_of_ne (q := .a) (by decide) x s, readReg_shiftInto_of_ne (q := .b) (by decide) x s,
    shiftInto_out .c x s, shiftInto_prog .c x s⟩

/-- Settles O4: the laws of the shifter, and each of the three is `shiftInto` with its own destination. -/
theorem shifterYieldsFloorQuotient : Obligations.ShifterYieldsFloorQuotient := by
  refine ⟨fun v n => ⟨shiftRight_toNat v n, shiftRight_zero v, shiftRight_eq_zero_of_lt,
    fun h => shiftRight_eq_zero_of_width_le h v, shiftRight_toNat_le v n⟩, fun x s => ?_⟩
  have result (dst : Reg) : readReg dst (shiftInto dst x s) = shiftRight s.a (comboValue x s).toNat :=
    readReg_shiftInto_self dst x s
  exact ⟨shiftInto .a x s, shiftInto .b x s, shiftInto .c x s, exec_adv x s, result .a, exec_bdv x s, result .b,
    exec_cdv x s, result .c⟩

end Sys2Proof.Machine

/-! PROOFS of the family 41_bitwise: Bxl, Bst and Bxc, each of which writes one value to B and advances. The frame of that
write and the laws of XOR are said once; each instruction's proof cites them. -/

namespace Sys2Proof.Machine

/-! ### The bits of a zero-extended element, and of an XOR with one (41_bitwise.md R110) -/

@[simp] theorem low3_zext (x : Element) : low3 (zext x) = x := by
  apply BitVec.eq_of_toNat_eq
  rw [low3_toNat, zext_toNat, Nat.mod_eq_of_lt x.isLt]

theorem low3_xor (v w : Word) : low3 (v ^^^ w) = low3 v ^^^ low3 w := BitVec.extractLsb'_xor

theorem getLsbD_zext_of_le {k : Nat} (h : 3 ≤ k) (x : Element) : (zext x).getLsbD k = false := by
  rw [zext, BitVec.getLsbD_setWidth, BitVec.getLsbD_of_ge x k h, Bool.and_false]

theorem xor_zext_toNat (v : Word) (x : Element) : (v ^^^ zext x).toNat = v.toNat ^^^ x.toNat := by
  rw [BitVec.toNat_xor, zext_toNat]

/-- A literal has three bits, so it reaches no bit from 3 up. -/
theorem getLsbD_xor_zext_of_le {k : Nat} (h : 3 ≤ k) (v : Word) (x : Element) :
    (v ^^^ zext x).getLsbD k = v.getLsbD k := by
  rw [BitVec.getLsbD_xor, getLsbD_zext_of_le h, Bool.xor_false]

/-- The literal 0 extends to 0, which XOR ignores. -/
theorem xor_zext_zero (v : Word) : v ^^^ zext 0 = v := BitVec.xor_zero

/-- The literal 7 is all ones in three bits. -/
theorem low3_xor_zext_seven (v : Word) : low3 (v ^^^ zext 7) = ~~~ low3 v := by
  rw [low3_xor, low3_zext]
  exact BitVec.xor_allOnes

/-- XOR with the same value twice restores the first: why Bxl and Bxc undo themselves. -/
theorem xor_xor_cancel_right (v w : Word) : v ^^^ w ^^^ w = v := by
  rw [BitVec.xor_assoc, BitVec.xor_self, BitVec.xor_zero]

/-! ### The value Bst writes (41_bitwise.md R111) -/

theorem zext_low3_toNat_lt (v : Word) : (zext (low3 v)).toNat < 8 := by
  rw [zext_toNat]
  exact (low3 v).isLt

/-- A literal operand is below 4, so taking it mod 8 leaves it. -/
theorem zext_low3_comboValue_lit_toNat (v : BitVec 2) (s : State) :
    (zext (low3 (comboValue (.lit v) s))).toNat = v.toNat := by
  rw [zext_low3_toNat, comboValue_lit_toNat]
  exact Nat.mod_eq_of_lt (v.isLt.trans (by decide))

theorem zext_low3_zero : zext (low3 0) = 0 := by decide

/-! ### The frame of a write to B -/

/-- Writing B and advancing keeps everything else. -/
theorem advance_writeB_frame (v : Word) (s : State) :
    (advance { s with b := v }).pc = s.pc + 2 ∧ (advance { s with b := v }).a = s.a ∧
    (advance { s with b := v }).c = s.c ∧ (advance { s with b := v }).out = s.out ∧
    (advance { s with b := v }).prog = s.prog := ⟨rfl, rfl, rfl, rfl, rfl⟩

/-! ### The obligations -/

/-- Settles O5: B holds `B XOR zext x`, and the clauses about it are the laws of XOR with a three-bit literal. -/
theorem bxlXorsLiteralIntoB : Obligations.BxlXorsLiteralIntoB := by
  intro x s
  refine ⟨rfl, sixBit_and_mask 1 x, _, exec_bxl x s, xor_zext_toNat s.b x,
    fun k hk => getLsbD_xor_zext_of_le hk s.b x, ?zero, ?seven, ⟨_, exec_bxl x _, xor_xor_cancel_right s.b (zext x)⟩,
    advance_writeB_frame _ s⟩
  case zero =>
    rintro rfl
    exact xor_zext_zero s.b
  case seven =>
    rintro rfl
    exact low3_xor_zext_seven s.b

/-- Settles O6: B holds the low three bits of the operand's value; the kinds of operand differ in that value only. -/
theorem bstPutsComboModEightInB : Obligations.BstPutsComboModEightInB := by
  intro x s
  refine ⟨rfl, sixBit_and_mask 2 (comboCode x), _, exec_bst x s, zext_low3_toNat _, zext_low3_toNat_lt _,
    ?lit, ?reg, ?reserved, advance_writeB_frame _ s⟩
  case lit =>
    rintro v rfl
    exact zext_low3_comboValue_lit_toNat v s
  case reg =>
    rintro r rfl
    exact zext_low3_toNat (readReg r s)
  case reserved =>
    rintro rfl
    exact zext_low3_zero

/-- Settles O7: B holds `B XOR C`, a value in which the operand does not occur, and C stays for the second Bxc to cancel. -/
theorem bxcXorsCIntoBWhateverOperand : Obligations.BxcXorsCIntoBWhateverOperand := by
  intro x y s
  refine ⟨rfl, sixBit_and_mask 4 x, _, exec_bxc x s, exec_bxc y s, BitVec.toNat_xor s.b s.c, ?c_zero, ?b_eq_c,
    ⟨_, exec_bxc y _, xor_xor_cancel_right s.b s.c⟩, advance_writeB_frame _ s⟩
  case c_zero =>
    intro hc
    rw [advance_b, hc]
    exact BitVec.xor_zero
  case b_eq_c =>
    intro hbc
    rw [advance_b, hbc]
    exact BitVec.xor_self

end Sys2Proof.Machine

/-! PROOFS of the family 42_control: the halt, the step at a pair, and Jnz. What a fetch finds at a complete pair and at a
halt is said once; Jnz changes the program counter alone, so its clauses are facts about `nextPc`. -/

namespace Sys2Proof.Machine

/-! ### The halt (42_control.md R121) -/

theorem halted_iff_length_le (s : State) : halted s = true ↔ s.prog.length ≤ s.pc.toNat + 1 := decide_eq_true_iff

theorem halted_iff_traceOf_eq_none (s : State) : halted s = true ↔ traceOf s = none := by
  rcases fetch_cases s with ⟨hh, -, ht⟩ | ⟨o, x, hh, -, -, -, ht⟩ <;> simp [hh, ht]

theorem step_of_halted {s : State} (h : halted s = true) : step s = .next s :=
  step_of_none ((halted_iff_currentInstr_eq_none s).mp h)

theorem outData_of_halted {s : State} (h : halted s = true) : outData s = none :=
  outData_of_none ((halted_iff_currentInstr_eq_none s).mp h)

theorem exists_currentInstr_of_not_halted {s : State} (h : halted s = false) : ∃ i, currentInstr s = some i := by
  rw [← Option.ne_none_iff_exists', Ne, ← halted_iff_currentInstr_eq_none, h]
  exact Bool.false_ne_true

/-- Settles O18: the halt, the missing pair and the missing trace record are one condition; under it the step is
`step_of_halted`, and otherwise an instruction is fetched, whose execution completes. -/
theorem haltsExactlyWithoutAPair : Obligations.HaltsExactlyWithoutAPair := by
  intro s
  refine ⟨halted_iff_length_le s, halted_iff_traceOf_eq_none s, fun hh => ⟨step_of_halted hh, outData_of_halted hh⟩,
    fun hh => ?_⟩
  obtain ⟨i, hi⟩ := exists_currentInstr_of_not_halted hh
  exact ⟨i, effect i s, hi, step_of_some hi, exec_eq_effect i s⟩

/-! ### The step at a pair (42_control.md R120 R122) -/

/-- A fetch finds the pair that stands at the program counter: a pair leaves no room for the halt. -/
theorem fetch_of_pair {s : State} {o x : Element} (ho : Memory.element? s.prog s.pc.toNat = some o)
    (hx : Memory.element? s.prog (s.pc.toNat + 1) = some x) :
    currentInstr s = some (decodePair o x) ∧ traceOf s = some ⟨s.pc, o, x⟩ := by
  rcases fetch_cases s with ⟨hh, -, -⟩ | ⟨o', x', -, ho', hx', hc, ht⟩
  · have beyond : Memory.element? s.prog (s.pc.toNat + 1) = none :=
      List.getElem?_eq_none ((halted_iff_length_le s).mp hh)
    rw [beyond] at hx
    cases hx
  · obtain rfl : o' = o := Option.some.inj (ho'.symm.trans ho)
    obtain rfl : x' = x := Option.some.inj (hx'.symm.trans hx)
    exact ⟨hc, ht⟩

theorem step_of_pair {s : State} {o x : Element} (ho : Memory.element? s.prog s.pc.toNat = some o)
    (hx : Memory.element? s.prog (s.pc.toNat + 1) = some x) : step s = exec (decodePair o x) s :=
  step_of_some (fetch_of_pair ho hx).1

theorem currentInstr_of_decode {s : State} {i : Instr} {rest : List Element}
    (h : decode (s.prog.drop s.pc.toNat) = .instr i rest) : currentInstr s = some i := by
  simp only [currentInstr, fetchElements, h]

/-- Settles O17: `fetch_of_pair` at a complete pair, and the halt without one. -/
theorem stepExecutesTheDecodedPair : Obligations.StepExecutesTheDecodedPair := by
  intro s
  refine ⟨fun o x ho hx => ⟨step_of_pair ho hx, (fetch_of_pair ho hx).2⟩,
    fun i rest h => step_of_some (currentInstr_of_decode h), fun hN => ?_⟩
  have hh : halted s = true := (halted_iff_length_le s).mpr hN
  exact ⟨step_of_halted hh, (halted_iff_traceOf_eq_none s).mp hh⟩

/-! ### Jnz (42_control.md R125) -/

/-- Jnz completes and changes the program counter alone. -/
theorem exec_jnz_eq_withPc (x : Combo) (s : State) :
    exec (.jnz x) s = .next { s with pc := nextPc (.jnz x) s } := by
  rw [exec_eq_effect, effect_of_appendedBy_eq_nil rfl]
  rfl

/-- Settles O8: where Jnz goes is `nextPc`, everything else stays, and the step after it is the halt or the pair it meets. -/
theorem jnzJumpsToComboWhenANotZero : Obligations.JnzJumpsToComboWhenANotZero := by
  intro x s
  refine ⟨rfl, sixBit_and_mask 3 (comboCode x), _, exec_jnz_eq_withPc x s, fun ha => nextPc_jnz_taken ha x,
    fun ha => nextPc_jnz_not_taken ha x, ?to_a, ?reserved, ?own_index, ?beyond, fun o y => step_of_pair,
    rfl, rfl, rfl, rfl, rfl⟩
  case to_a =>
    rintro ha rfl
    exact nextPc_jnz_taken ha (.reg .a)
  case reserved =>
    rintro ha rfl
    exact nextPc_jnz_taken ha .reserved
  case own_index =>
    intro ha hpc
    rw [nextPc_jnz_taken ha, hpc]
  case beyond =>
    intro hN
    have hh := (halted_iff_length_le _).mpr hN
    exact ⟨hh, step_of_halted hh⟩

end Sys2Proof.Machine

/-! PROOFS of the family 43_output: Out. The element it appends is the low three bits of the operand's value, and since no
step reads the output, the steps after it are those of the state that only advanced. -/

namespace Sys2Proof.Machine

/-! ### The element Out appends (43_output.md R140) -/

/-- A literal operand appends itself. -/
theorem low3_comboValue_lit_toNat (v : BitVec 2) (s : State) : (low3 (comboValue (.lit v) s)).toNat = v.toNat :=
  (zext_toNat _).symm.trans (zext_low3_comboValue_lit_toNat v s)

theorem low3_zero : low3 0 = 0 := low3_zext 0

/-! ### The steps after Out -/

/-- Runs from states that differ in the output differ in the output only. -/
theorem stepN_withOut_clear_out (k : Nat) (s : State) (o : List Element) :
    { stepN k { s with out := o } with out := [] } = { stepN k s with out := [] } := by
  rw [stepN_withOut]

/-- Settles O9: the appended element is `low3` of the operand's value, and the state Out leaves is the advanced one with
another output, which `stepN_withOut_clear_out` follows through every later step. -/
theorem outAppendsComboModEight : Obligations.OutAppendsComboModEight := by
  intro x s
  refine ⟨rfl, sixBit_and_mask 5 (comboCode x), _, low3 (comboValue x s), exec_out x s, rfl, low3_toNat _,
    ?lit, ?reg, ?reserved, rfl, rfl, rfl, rfl, rfl,
    fun k => stepN_withOut_clear_out k (advance s) (s.out ++ [low3 (comboValue x s)])⟩
  case lit =>
    rintro v rfl
    exact low3_comboValue_lit_toNat v s
  case reg =>
    rintro r rfl
    exact low3_toNat (readReg r s)
  case reserved =>
    rintro rfl
    exact low3_zero

end Sys2Proof.Machine

/-! PROOFS of the family other, codes: an instruction and its pair of elements determine each other, so `decode` and `encode`,
the six-bit view and the host's word form all go back and forth; and what follows from the code tables alone. -/

namespace Sys2Proof.Machine

/-! ### An instruction and its pair (30_encoding.md R60 R73) -/

@[simp] theorem decodePair_opcodeCode_operandCode (i : Instr) : decodePair (opcodeCode i.opcode) (operandCode i) = i := by
  unfold decodePair
  rw [opcodeOf_opcodeCode]
  cases i <;> simp [Instr.opcode, operandCode]

theorem encode_decodePair (o x : Element) : encode (decodePair o x) = [o, x] := by
  rw [encode, decodePair_opcode, opcodeCode_opcodeOf, operandCode_decodePair]

theorem decode_encode_append (i : Instr) (rest : List Element) : decode (encode i ++ rest) = .instr i rest :=
  congrArg (DecodeResult.instr · rest) (decodePair_opcodeCode_operandCode i)

/-- Settles O15: a list of two elements or more is the encoding of the pair's instruction and the rest; a shorter one is
rejected. -/
theorem decodeAnswersExactlyTheEncoded : Obligations.DecodeAnswersExactlyTheEncoded := by
  intro es
  refine ⟨fun i rest => ⟨fun h => ?_, fun h => h ▸ decode_encode_append i rest⟩, ?_⟩
  · rcases decode_cases es with ⟨-, hd⟩ | ⟨o, -, hd⟩ | ⟨o, x, rest', rfl, hd⟩
    · cases hd.symm.trans h
    · cases hd.symm.trans h
    · cases hd.symm.trans h
      rw [encode_decodePair]
      rfl
  · rcases decode_cases es with ⟨rfl, hd⟩ | ⟨o, rfl, hd⟩ | ⟨o, x, rest, rfl, hd⟩ <;> simp [hd]

/-! ### The six-bit view and the host's word form (30_encoding.md R61) -/

theorem decodeSixBit_encodeSixBit (i : Instr) : decodeSixBit (encodeSixBit i) = i := by
  rw [encodeSixBit, decodeSixBit_sixBit, decodePair_opcodeCode_operandCode]

theorem encodeSixBit_decodePair (o x : Element) : encodeSixBit (decodePair o x) = sixBit o x := by
  rw [encodeSixBit, decodePair_opcode, opcodeCode_opcodeOf, operandCode_decodePair]

theorem encodeSixBit_decodeSixBit (w : SixBit) : encodeSixBit (decodeSixBit w) = w := by
  obtain ⟨o, x, rfl⟩ := exists_sixBit_eq w
  rw [decodeSixBit_sixBit, encodeSixBit_decodePair]

/-- In six bits or more the whole six-bit view counts. -/
theorem sixBit_toNat_mod {nbits : Nat} (h : 6 ≤ nbits) (w : SixBit) : w.toNat % 2 ^ nbits = w.toNat :=
  Nat.mod_eq_of_lt (w.isLt.trans_le (Nat.pow_le_pow_right Nat.two_pos h))

theorem tableElements_sixBit {nbits : Nat} (h : 6 ≤ nbits) (o x : Element) :
    tableElements nbits (sixBit o x).toNat = [o, x] := by
  rw [tableElements, sixBit_toNat_mod h]
  revert o x; decide

theorem decodeTableWord_sixBit {nbits : Nat} (h : 6 ≤ nbits) (o x : Element) :
    decodeTableWord nbits (sixBit o x).toNat = some (decodePair o x) := by
  rw [decodeTableWord, tableElements_sixBit h, sixBit_toNat_mod h, if_pos (sixBit o x).isLt]
  rfl

theorem decodeTableWord_encodeSixBit {nbits : Nat} (h : 6 ≤ nbits) (i : Instr) :
    decodeTableWord nbits (encodeSixBit i).toNat = some i := by
  rw [encodeSixBit, decodeTableWord_sixBit h, decodePair_opcodeCode_operandCode]

theorem decodeTableWord_of_too_wide {nbits w : Nat} (h : 64 ≤ w % 2 ^ nbits) : decodeTableWord nbits w = none :=
  if_neg (Nat.not_lt.mpr h)

/-- Settles O16: the view and the word form of an instruction are those of its pair, and every word is the view of a pair. -/
theorem sixBitViewRoundTrips : Obligations.SixBitViewRoundTrips := by
  exact ⟨fun i => ⟨decodeSixBit_encodeSixBit i, decodeTableWord_encodeSixBit (by decide) i,
    decodeTableWord_encodeSixBit (by decide) i⟩, encodeSixBit_decodeSixBit,
    fun w hlo hhi => decodeTableWord_of_too_wide (hlo.trans_eq (Nat.mod_eq_of_lt hhi).symm)⟩

/-! ### The code tables (30_encoding.md R67 R70) -/

/-- Settles O13: each of the eight rows of `decodePair`. -/
theorem opcodeNumbersSelectInstructions : Obligations.OpcodeNumbersSelectInstructions :=
  fun _ => ⟨rfl, rfl, rfl, rfl, rfl, rfl, rfl, rfl⟩

/-- Settles O14: eight closed words. -/
theorem listedWordsDecode : Obligations.ListedWordsDecode := by
  unfold Obligations.ListedWordsDecode
  decide

/-- A combo-mode opcode completes alike with the reserved operand 7 and with operand 0. -/
theorem exec_seven_and_zero_next {o : Element} (hm : (opcodeOf o).mode = .combo) (s : State) :
    ∃ t, exec (decodePair o 7) s = .next t ∧ exec (decodePair o 0) s = .next t :=
  ⟨_, exec_decodePair_seven hm s ▸ exec_eq_effect (decodePair o 0) s, exec_eq_effect _ s⟩

/-- Settles O11: the six combo-mode opcodes by their numbers, and operand 7 of Bxl and Bxc, which is not reserved. -/
theorem reservedComboActsAsZero : Obligations.ReservedComboActsAsZero := fun s =>
  have combo (o : Element) (hm : (opcodeOf o).mode = .combo) := exec_seven_and_zero_next hm s
  ⟨combo 0 rfl, combo 2 rfl, combo 3 rfl, combo 5 rfl, combo 6 rfl, combo 7 rfl,
    ⟨_, exec_bxl 7 s, xor_zext_toNat s.b 7⟩, ⟨_, exec_bxc 7 s, exec_bxc 0 s⟩⟩

/-! ### Operands that name the destination, and the literal reading of Jnz -/

/-- Settles O25: each shift writes `shiftedA`, whose amount is the old value of the register named. -/
theorem shiftByTheDestinationUsesOldValue : Obligations.ShiftByTheDestinationUsesOldValue := by
  intro s
  have result (r : Reg) : readReg r (shiftInto r (.reg r) s) = shiftedA (.reg r) s := readReg_shiftInto_self ..
  have amount (r : Reg) : (shiftedA (.reg r) s).toNat = s.a.toNat / 2 ^ (readReg r s).toNat := shiftedA_toNat_of_reg rfl s
  exact ⟨_, _, _,
    exec_adv (.reg .a) s, (congrArg BitVec.toNat (result .a)).trans (amount .a), (result .a).trans (shiftedA_of_reg_a rfl s),
    exec_bdv (.reg .b) s, (congrArg BitVec.toNat (result .b)).trans (amount .b), rfl,
    exec_cdv (.reg .c) s, (congrArg BitVec.toNat (result .c)).trans (amount .c), rfl⟩

/-- A literal code 0 to 3 has one value under both readings of Jnz's operand. -/
theorem literalValue_comboCode_lit (v : BitVec 2) (s : State) :
    literalValue (comboCode (.lit v)) = comboValue (.lit v) s := by
  rw [literalValue, zext, comboCode, comboValue]
  exact BitVec.setWidth_setWidth (by decide)

/-- Settles O27: the machine's Jnz is the combo reading, and on a literal code both readings jump to one value. -/
theorem jnzReadingsAgreeOnSmallOperands : Obligations.JnzReadingsAgreeOnSmallOperands := by
  refine fun x s => ⟨rfl, ?_⟩
  rintro v rfl
  rw [jnzWith, jnzWith, jnzTarget, jnzTarget, literalValue_comboCode_lit v s]

end Sys2Proof.Machine

/-! PROOFS of the family other, the step: where it leaves the program counter, and the same step over natural numbers, whose
effect of a pair is `effect` of the decoded instruction read as numbers. -/

namespace Sys2Proof.Machine

/-! ### Where a step leaves the program counter (10_state.md R24 R25) -/

theorem eq_stepOnce_of_step {s t : State} (h : step s = .next t) : t = stepOnce s := (stepOnce_of_next h).symm

/-- An instruction advances, unless it is a taken Jnz. -/
theorem nextPc_cases (i : Instr) (s : State) :
    nextPc i s = s.pc + 2 ∨ ∃ x, i = .jnz x ∧ s.a ≠ 0 ∧ nextPc i s = comboValue x s := by
  cases i with
  | jnz x =>
    by_cases ha : s.a = 0
    · exact .inl (nextPc_jnz_not_taken ha x)
    · exact .inr ⟨x, rfl, ha, nextPc_jnz_taken ha x⟩
  | _ => exact .inl rfl

theorem succ_pc_lt_of_not_halted {s : State} (h : halted s = false) : s.pc.toNat + 1 < s.prog.length := by
  rw [← not_le, ← halted_iff_length_le, h]
  exact Bool.false_ne_true

/-- Settles O24: `nextPc_cases`, with no wrap at a pair inside a bounded store. -/
theorem programCounterNeverWraps : Obligations.ProgramCounterNeverWraps := by
  intro s t hs hh hst
  obtain ⟨i, hi⟩ := exists_currentInstr_of_not_halted hh
  rw [eq_stepOnce_of_step hst, stepOnce_of_some hi, effect_pc]
  rcases nextPc_cases i s with hpc | ⟨x, rfl, ha, hpc⟩
  · rw [hpc, pc_add_two_toNat hs hh]
    exact .inl ⟨rfl, succ_pc_lt_of_not_halted hh⟩
  · exact .inr ⟨x, hi, ha, hpc⟩

/-! ### The bound on the program store (00_scope.md R6) -/

theorem storeInv_stepOnce {s : State} (h : StoreInv s) : StoreInv (stepOnce s) := by
  rwa [StoreInv, stepOnce_prog]

/-- Settles O36: the bound speaks of the program, which no step changes. -/
theorem stepKeepsStoreBound : Obligations.StepKeepsStoreBound := by
  intro s t hs hst
  rw [eq_stepOnce_of_step hst]
  exact storeInv_stepOnce hs

/-! ### The natural-number core (10_state.md R22) -/

@[simp] theorem natCoreOf_a (s : State) : (natCoreOf s).a = s.a.toNat := rfl
@[simp] theorem natCoreOf_b (s : State) : (natCoreOf s).b = s.b.toNat := rfl
@[simp] theorem natCoreOf_c (s : State) : (natCoreOf s).c = s.c.toNat := rfl
@[simp] theorem natCoreOf_pc (s : State) : (natCoreOf s).pc = s.pc.toNat := rfl
@[simp] theorem natCoreOf_prog (s : State) : (natCoreOf s).prog = s.prog := rfl
@[simp] theorem natCoreOf_out (s : State) : (natCoreOf s).out = s.out := rfl

section
variable (x : Element) (n : NatCore)

theorem natCore_effect_adv :
    n.effect (opcodeCode .adv) x = { n with a := n.a / 2 ^ n.combo x, pc := n.pc + 2 } := rfl
theorem natCore_effect_bxl :
    n.effect (opcodeCode .bxl) x = { n with b := n.b ^^^ x.toNat, pc := n.pc + 2 } := rfl
theorem natCore_effect_bst :
    n.effect (opcodeCode .bst) x = { n with b := n.combo x % 8, pc := n.pc + 2 } := rfl
theorem natCore_effect_jnz :
    n.effect (opcodeCode .jnz) x = if n.a ≠ 0 then { n with pc := n.combo x } else { n with pc := n.pc + 2 } := rfl
theorem natCore_effect_bxc :
    n.effect (opcodeCode .bxc) x = { n with b := n.b ^^^ n.c, pc := n.pc + 2 } := rfl
theorem natCore_effect_out :
    n.effect (opcodeCode .out) x = { n with out := n.out ++ [BitVec.ofNat 3 (n.combo x)], pc := n.pc + 2 } := rfl
theorem natCore_effect_bdv :
    n.effect (opcodeCode .bdv) x = { n with b := n.a / 2 ^ n.combo x, pc := n.pc + 2 } := rfl
theorem natCore_effect_cdv :
    n.effect (opcodeCode .cdv) x = { n with c := n.a / 2 ^ n.combo x, pc := n.pc + 2 } := rfl

end

theorem natCore_step_of_pair {n : NatCore} {o x : Element} (ho : n.prog[n.pc]? = some o)
    (hx : n.prog[n.pc + 1]? = some x) : n.step = n.effect o x := by
  simp only [NatCore.step, ho, hx]

theorem natCore_step_of_length_le {n : NatCore} (h : n.prog.length ≤ n.pc + 1) : n.step = n := by
  have hx : n.prog[n.pc + 1]? = none := List.getElem?_eq_none h
  unfold NatCore.step
  rw [hx]
  cases n.prog[n.pc]? <;> rfl

/-- What a step of the natural-number core can do: nothing, or the effect of the pair at its program counter. -/
theorem natCore_step_cases (n : NatCore) :
    n.step = n ∨ ∃ o x, n.pc + 1 < n.prog.length ∧ n.step = n.effect o x := by
  rcases le_or_gt n.prog.length (n.pc + 1) with h | h
  · exact .inl (natCore_step_of_length_le h)
  · exact .inr ⟨_, _, h,
      natCore_step_of_pair (List.getElem?_eq_getElem (Nat.lt_of_succ_lt h)) (List.getElem?_eq_getElem h)⟩

/-! ### The machine's step read as natural numbers -/

/-- The raw operand's value in the natural-number core is the combo operand's value as a number. -/
theorem natCore_combo_comboCode (x : Combo) (s : State) :
    (natCoreOf s).combo (comboCode x) = (comboValue x s).toNat := by
  cases x with
  | lit v =>
    have code : (comboCode (.lit v)).toNat = v.toNat := by revert v; decide
    rw [comboValue_lit_toNat, NatCore.combo, code, if_pos (Nat.le_of_lt_succ v.isLt)]
  | reg r => cases r <;> rfl
  | reserved => rfl

/-- `low3` is taking a number's low three bits. -/
theorem ofNat_toNat_eq_low3 (v : Word) : BitVec.ofNat 3 v.toNat = low3 v := by
  apply BitVec.eq_of_toNat_eq
  rw [BitVec.toNat_ofNat, low3_toNat]

theorem effect_jnz (x : Combo) (s : State) : effect (.jnz x) s = { s with pc := nextPc (.jnz x) s } :=
  effect_of_appendedBy_eq_nil rfl

section
variable {s : State} (hpc : (s.pc + 2).toNat = s.pc.toNat + 2)
include hpc

/-- What an instruction that advances leaves, as numbers, where `pc + 2` does not wrap. -/
theorem natCoreOf_effect_of_advance {i : Instr} (hi : nextPc i s = s.pc + 2) :
    natCoreOf (effect i s) =
      { a := (regAfter i s .a).toNat, b := (regAfter i s .b).toNat, c := (regAfter i s .c).toNat,
        pc := s.pc.toNat + 2, prog := s.prog, out := s.out ++ appendedBy i s } := by
  simp only [natCoreOf, effect, hi, hpc]

theorem natCoreOf_effect_jnz (x : Combo) :
    natCoreOf (effect (.jnz x) s) = (natCoreOf s).effect (opcodeCode .jnz) (comboCode x) := by
  rw [effect_jnz, natCore_effect_jnz, natCore_combo_comboCode]
  by_cases ha : s.a = 0
  · have hn : ¬ (natCoreOf s).a ≠ 0 := not_not.mpr (congrArg BitVec.toNat ha)
    rw [if_neg hn, nextPc_jnz_not_taken ha, natCoreOf_pc, ← hpc]
    rfl
  · have hn : (natCoreOf s).a ≠ 0 := fun h => ha (BitVec.eq_of_toNat_eq h)
    rw [if_pos hn, nextPc_jnz_taken ha]
    rfl

/-- An instruction's effect, read as numbers, is the natural-number core's effect of its two elements. -/
theorem natCoreOf_effect (i : Instr) :
    natCoreOf (effect i s) = (natCoreOf s).effect (opcodeCode i.opcode) (operandCode i) := by
  cases i with
  | jnz x => exact natCoreOf_effect_jnz hpc x
  | adv x | bdv x | cdv x =>
    rw [natCoreOf_effect_of_advance hpc rfl]
    simp [Instr.opcode, operandCode, natCore_effect_adv, natCore_effect_bdv, natCore_effect_cdv,
      natCore_combo_comboCode, regAfter, writes, resultOf, appendedBy, shiftRight_toNat]
  | bxl x | bxc x =>
    rw [natCoreOf_effect_of_advance hpc rfl]
    simp [Instr.opcode, operandCode, natCore_effect_bxl, natCore_effect_bxc, regAfter, writes, resultOf, appendedBy,
      zext_toNat]
  | bst x =>
    rw [natCoreOf_effect_of_advance hpc rfl]
    simp [Instr.opcode, operandCode, natCore_effect_bst, natCore_combo_comboCode, regAfter, writes, resultOf,
      appendedBy, zext_low3_toNat]
  | out x =>
    rw [natCoreOf_effect_of_advance hpc rfl, Instr.opcode, operandCode, natCore_effect_out, natCore_combo_comboCode,
      ofNat_toNat_eq_low3]
    rfl

end

theorem natCoreOf_stepOnce {s : State} (hs : StoreInv s) : natCoreOf (stepOnce s) = (natCoreOf s).step := by
  rcases fetch_cases s with ⟨hh, hc, -⟩ | ⟨o, x, hh, ho, hx, hc, -⟩
  · rw [stepOnce_of_none hc, natCore_step_of_length_le ((halted_iff_length_le s).mp hh)]
  · rw [stepOnce_of_some hc, natCore_step_of_pair ho hx, natCoreOf_effect (pc_add_two_toNat hs hh), decodePair_opcode,
      opcodeCode_opcodeOf, operandCode_decodePair]

/-- Settles O33: no pair leaves both cores as they are, and a pair has one effect on both, `natCoreOf_effect`. -/
theorem stepRefinesNatCore : Obligations.StepRefinesNatCore :=
  fun s hs => ⟨stepOnce s, step_eq_next_stepOnce s, natCoreOf_stepOnce hs⟩

theorem natCoreOf_stepN (k : Nat) {s : State} (hs : StoreInv s) :
    natCoreOf (stepN k s) = NatCore.stepN k (natCoreOf s) := by
  induction k generalizing s with
  | zero => rfl
  | succ k ih => rw [stepN_succ, ih (storeInv_stepOnce hs), natCoreOf_stepOnce hs, NatCore.stepN]

/-! ### Every width (10_state.md R22 R25) -/

section
variable {w : Nat} {n : NatCore} (hw : 3 ≤ w) (h : n.InRange w)
include hw h

theorem natCore_combo_lt (x : Element) : n.combo x < 2 ^ w := by
  obtain ⟨ha, hb, hc, -, -⟩ := h
  have hx : x.toNat < 2 ^ w := x.isLt.trans_le (Nat.pow_le_pow_right Nat.two_pos hw)
  unfold NatCore.combo
  split_ifs
  exacts [hx, ha, hb, hc, Nat.two_pow_pos w]

/-- No effect of a pair leaves the range: shifts and Bst make values smaller, XOR keeps the width, and a jump goes to a value. -/
theorem natCore_effect_inRange (hpair : n.pc + 1 < n.prog.length) (o : Opcode) (x : Element) :
    (n.effect (opcodeCode o) x).InRange w := by
  have combo := natCore_combo_lt hw h x
  obtain ⟨ha, hb, hc, -, hN⟩ := h
  have hpc : n.pc + 2 < 2 ^ w := lt_of_le_of_lt hpair hN
  have eight : 2 ^ 3 ≤ 2 ^ w := Nat.pow_le_pow_right Nat.two_pos hw
  have shifted : n.a / 2 ^ n.combo x < 2 ^ w := (Nat.div_le_self ..).trans_lt ha
  cases o with
  | adv => exact ⟨shifted, hb, hc, hpc, hN⟩
  | bxl => exact ⟨ha, Nat.xor_lt_two_pow hb (x.isLt.trans_le eight), hc, hpc, hN⟩
  | bst => exact ⟨ha, (Nat.mod_lt _ (by decide)).trans_le eight, hc, hpc, hN⟩
  | jnz =>
    rw [natCore_effect_jnz]
    split
    · exact ⟨ha, hb, hc, combo, hN⟩
    · exact ⟨ha, hb, hc, hpc, hN⟩
  | bxc => exact ⟨ha, Nat.xor_lt_two_pow hb hc, hc, hpc, hN⟩
  | out => exact ⟨ha, hb, hc, hpc, hN⟩
  | bdv => exact ⟨ha, shifted, hc, hpc, hN⟩
  | cdv => exact ⟨ha, hb, shifted, hpc, hN⟩

end

/-- Settles O35: a step with a pair at `pc` has `pc + 2 <= N < 2^w` and the effect of one of the eight opcodes. -/
theorem natCoreKeepsEveryWidth : Obligations.NatCoreKeepsEveryWidth := by
  intro w n hw h
  rcases natCore_step_cases n with hstep | ⟨o, x, hpair, hstep⟩
  · rwa [hstep]
  · rw [hstep, ← opcodeCode_opcodeOf o]
    exact natCore_effect_inRange hw h hpair (opcodeOf o) x

/-! ### Programs that jump to even indices only (70_reset_and_hazards.md R184) -/

theorem evenTargets_cons_cons (o x : Element) (rest : List Element) : evenTargets (o :: x :: rest) = true ↔
    (∀ y, decodePair o x = .jnz y → y = .lit 0 ∨ y = .lit 2) ∧ evenTargets rest = true := by
  rw [evenTargets, Bool.and_eq_true]
  cases decodePair o x <;> simp

theorem length_even_of_evenTargets : ∀ {p : List Element}, evenTargets p = true → p.length % 2 = 0
  | [], _ => rfl
  | [_], h => by cases h
  | o :: x :: rest, h => by
    have ih := length_even_of_evenTargets ((evenTargets_cons_cons o x rest).mp h).2
    simp only [List.length_cons]
    omega

/-- A Jnz that stands at an even index of such a program has the target 0 or 2. -/
theorem jnz_target_of_evenTargets {o x : Element} {y : Combo} (hy : decodePair o x = .jnz y) :
    ∀ {p : List Element} {k : Nat}, evenTargets p = true → p[2 * k]? = some o → p[2 * k + 1]? = some x →
      y = .lit 0 ∨ y = .lit 2
  | [], _, _, ho, _ => by cases ho
  | [_], _, h, _, _ => by cases h
  | o' :: x' :: rest, 0, h, ho, hx => by
    cases ho
    cases hx
    exact ((evenTargets_cons_cons o x rest).mp h).1 y hy
  | o' :: x' :: rest, _ + 1, h, ho, hx =>
    jnz_target_of_evenTargets hy ((evenTargets_cons_cons o' x' rest).mp h).2 ho hx

theorem comboValue_lit_zero_or_two_even {x : Combo} (h : x = .lit 0 ∨ x = .lit 2) (s : State) :
    (comboValue x s).toNat % 2 = 0 := by
  rcases h with rfl | rfl <;> rw [comboValue_lit_toNat] <;> rfl

theorem stepOnce_pc_even {s : State} (h : EvenInv s) : (stepOnce s).pc.toNat % 2 = 0 := by
  obtain ⟨hs, ht, heven⟩ := h
  rcases fetch_cases s with ⟨-, hc, -⟩ | ⟨o, x, hh, ho, hx, hc, -⟩
  · rwa [stepOnce_of_none hc]
  · rw [stepOnce_of_some hc, effect_pc]
    rcases nextPc_cases (decodePair o x) s with hpc | ⟨y, hy, -, hpc⟩
    · rw [hpc, pc_add_two_toNat hs hh, Nat.add_mod_right, heven]
    · rw [hpc]
      have half : s.pc.toNat = 2 * (s.pc.toNat / 2) := by omega
      rw [half] at ho hx
      exact comboValue_lit_zero_or_two_even (jnz_target_of_evenTargets hy ht ho hx) s

/-- Settles O37: the program stays, and the program counter moves by two or to the even target of a Jnz at an even index. -/
theorem stepKeepsProgramCounterEven : Obligations.StepKeepsProgramCounterEven := by
  intro s t h hst
  rw [eq_stepOnce_of_step hst]
  have even := stepOnce_pc_even h
  obtain ⟨hs, ht, -⟩ := h
  rw [EvenInv, stepOnce_prog]
  exact ⟨hs, ht, even⟩

/-- Settles O38: `pc` and `N` are even, so `N <= pc + 1` leaves no trailing opcode. -/
theorem evenProgramHaltsPastTheEnd : Obligations.EvenProgramHaltsPastTheEnd := by
  rintro s ⟨-, ht, heven⟩ hh
  have hN := length_even_of_evenTargets ht
  have hle := (halted_iff_length_le s).mp hh
  omega

/-- Settles O39: the program there is empty and the program counter 0. -/
theorem resetMeetsTheInvariants : Obligations.ResetMeetsTheInvariants :=
  ⟨reset_prog_wf, reset_prog_wf, rfl, rfl⟩

end Sys2Proof.Machine

/-! PROOFS of the family other, runs: a state that its step keeps is kept by every run, which is what a halt and a Jnz to
itself come to; what a step emits and records does not depend on the output; and the end of a run, seen with a ceiling and
without. -/

namespace Sys2Proof.Machine

/-! ### Runs that stay where they are -/

theorem stepN_of_fixed {s : State} (h : stepOnce s = s) (k : Nat) : stepN k s = s := by
  induction k with
  | zero => rfl
  | succ k ih => rw [stepN_succ, h, ih]

theorem stepOnce_of_halted {s : State} (h : halted s = true) : stepOnce s = s :=
  stepOnce_of_next (step_of_halted h)

theorem stepN_of_halted {s : State} (h : halted s = true) (k : Nat) : stepN k s = s :=
  stepN_of_fixed (stepOnce_of_halted h) k

theorem traces_succ (k : Nat) (s : State) : traces (k + 1) s = (traceOf s).toList ++ traces k (stepOnce s) := rfl

theorem traces_of_halted {s : State} (h : halted s = true) (k : Nat) : traces k s = [] := by
  induction k with
  | zero => rfl
  | succ k ih =>
    rw [traces_succ, (halted_iff_traceOf_eq_none s).mp h, stepOnce_of_halted h, ih]
    rfl

theorem emitted_of_halted {s : State} (h : halted s = true) (k : Nat) : emitted k s = [] := by
  induction k with
  | zero => rfl
  | succ k ih =>
    rw [emitted_succ, outData_of_halted h, stepOnce_of_halted h, ih]
    rfl

/-- Settles O21: a halted state is kept by its step, which records and emits nothing. -/
theorem haltIsFinal : Obligations.HaltIsFinal := by
  intro s k hh
  rw [stepN_of_halted hh]
  exact ⟨rfl, hh, traces_of_halted hh k, emitted_of_halted hh k⟩

/-- Settles O20: at `pc = 0` one element is no pair. -/
theorem emptyOrSingleElementProgramHalts : Obligations.EmptyOrSingleElementProgramHalts := by
  intro l hl
  have hh : halted (State.boot l) = true := (halted_iff_length_le _).mpr hl
  exact ⟨hh, stepN_of_halted hh⟩

/-- Settles O19: one element is left at `pc`, which is a trailing opcode for the decoder and no pair for the step. -/
theorem trailingOpcodeHalts : Obligations.TrailingOpcodeHalts := by
  intro s hN
  have hh : halted s = true := (halted_iff_length_le s).mpr hN.le
  have one_left : (fetchElements s).length = 1 := by
    rw [fetchElements, List.length_drop, hN, Nat.add_sub_cancel_left]
  obtain ⟨o, ho⟩ := List.length_eq_one_iff.mp one_left
  exact ⟨⟨o, congrArg decode ho⟩, hh, step_of_halted hh⟩

theorem not_halted_of_some {s : State} {i : Instr} (h : currentInstr s = some i) : halted s = false := by
  rw [← Bool.not_eq_true, halted_iff_currentInstr_eq_none, h]
  exact Option.some_ne_none i

/-- Settles O26: such a Jnz writes the program counter that is there already, so its state is kept and is not halted. -/
theorem jnzToItselfNeverEnds : Obligations.JnzToItselfNeverEnds := by
  intro s x hi ha hpc
  have fixed : stepOnce s = s := by
    rw [stepOnce_of_some hi, effect_jnz, nextPc_jnz_taken ha, hpc]
  have stays := stepN_of_fixed fixed
  refine ⟨fun k => ?_, stays⟩
  rw [stays]
  exact not_halted_of_some hi

/-! ### Runs without faults (60_exceptions.md R160) -/

theorem core_run_eq_stepN (k : Nat) (s : State) : Sys2Proof.core.run k s = .next (stepN k s) := by
  induction k generalizing s with
  | zero => rfl
  | succ k ih => rw [core_run_succ (step_eq_next_stepOnce s), ih, stepN_succ]

/-- Settles O22: every step ends in a next state, so every run does. -/
theorem everyRunIsFreeOfFaults : Obligations.EveryRunIsFreeOfFaults :=
  fun s => ⟨fun k => ⟨stepN k s, core_run_eq_stepN k s⟩, ⟨stepOnce s, step_eq_next_stepOnce s⟩,
    fun k => core_run_eq_stepN k s⟩

/-! ### What a run emits and records (43_output.md R141; 42_control.md R129) -/

/-- Settles O31: `stepN_out`, and a launch starts with the empty output. -/
theorem outputHoldsEmittedValuesInOrder : Obligations.OutputHoldsEmittedValuesInOrder :=
  ⟨fun s k => stepN_out k s, fun l k => stepN_out k (State.boot l)⟩

theorem outData_withOut (s : State) (o : List Element) : outData { s with out := o } = outData s := by
  have same (x : Combo) : comboValue x { s with out := o } = comboValue x s :=
    comboValue_congr fun r => by cases r <;> rfl
  unfold outData
  rw [show currentInstr { s with out := o } = currentInstr s from rfl]
  split
  · rw [same]
  · rfl

theorem emitted_withOut (k : Nat) (s : State) (o : List Element) :
    emitted k { s with out := o } = emitted k s := by
  induction k generalizing s o with
  | zero => rfl
  | succ k ih => rw [emitted_succ, emitted_succ, outData_withOut, stepOnce_withOut, ih]

theorem traces_withOut (k : Nat) (s : State) (o : List Element) :
    traces k { s with out := o } = traces k s := by
  induction k generalizing s o with
  | zero => rfl
  | succ k ih =>
    rw [traces_succ, traces_succ, stepOnce_withOut, ih]
    rfl

/-- Settles O32: another starting output is carried through every step, and neither the fetch nor an operand reads it. -/
theorem runDoesNotDependOnOutput : Obligations.RunDoesNotDependOnOutput :=
  fun s o k => ⟨stepN_withOut k s o, traces_withOut k s o, emitted_withOut k s o⟩

/-- A trace record is the pair that a fetch found, with the program counter. -/
theorem pair_of_traceOf {s : State} {r : TraceRecord} (h : traceOf s = some r) :
    r.pc = s.pc ∧ Memory.element? s.prog s.pc.toNat = some r.opcode ∧
      Memory.element? s.prog (s.pc.toNat + 1) = some r.operand := by
  rcases fetch_cases s with ⟨-, -, ht⟩ | ⟨o, x, -, ho, hx, -, ht⟩
  · cases ht.symm.trans h
  · cases ht.symm.trans h
    exact ⟨rfl, ho, hx⟩

theorem currentInstr_of_traceOf {s : State} {r : TraceRecord} (h : traceOf s = some r) :
    currentInstr s = some (decodePair r.opcode r.operand) := by
  obtain ⟨-, ho, hx⟩ := pair_of_traceOf h
  exact (fetch_of_pair ho hx).1

/-- Settles O45: the trace record is the pair a fetch finds, and `fetch_of_pair` finds the pair that stands there. -/
theorem traceRecordIsTheFetchedPair : Obligations.TraceRecordIsTheFetchedPair := by
  refine fun s r => ⟨⟨pair_of_traceOf, fun ⟨hpc, ho, hx⟩ => ?_⟩, currentInstr_of_traceOf⟩
  rw [(fetch_of_pair ho hx).2, ← hpc]

theorem outData_isSome_iff (s : State) : (outData s).isSome = true ↔ ∃ x, currentInstr s = some (.out x) := by
  unfold outData
  split
  next x h => exact ⟨fun _ => ⟨x, h⟩, fun _ => rfl⟩
  next h => exact ⟨fun hs => (Bool.false_ne_true hs).elim, fun ⟨x, hx⟩ => (h x hx).elim⟩

/-- Settles O46: `stepOnce_out` tells the appended value, and the other signals are fields and conditions of the state. -/
theorem outputSignalsTellTheStep : Obligations.OutputSignalsTellTheStep :=
  fun s => ⟨stepOnce s, step_eq_next_stepOnce s, stepOnce_out s, outData_isSome_iff s, halted_iff_traceOf_eq_none s,
    rfl, rfl, rfl, rfl⟩

/-- Settles O47: the record's pair is the instruction executed, which is well-formed, and a reserved word's is not. -/
theorem wellFormedRunMeetsNoReservedWord : Obligations.WellFormedRunMeetsNoReservedWord := by
  rintro s k r ⟨-, well_formed⟩ ht hmem
  have hi := currentInstr_of_traceOf ht
  have ill_formed := (decodePair_wellFormed_eq_false_iff _ _).mpr ((sixBit_mem_reserved_iff _ _).mp hmem)
  exact Bool.false_ne_true (ill_formed.symm.trans (well_formed k _ hi))

/-! ### The end of a run (42_control.md R124 R127 R128) -/

theorem stepN_succ' (k : Nat) (s : State) : stepN (k + 1) s = stepOnce (stepN k s) := stepN_add k 1 s

theorem endsAfter_zero_iff {s t : State} : EndsAfter 0 s t ↔ halted s = true ∧ s = t :=
  ⟨And.right, fun h => ⟨fun _ hj => (Nat.not_lt_zero _ hj).elim, h⟩⟩

/-- The run from a state that is not halted ends one step after the run from the next state. -/
theorem endsAfter_succ_iff {k : Nat} {s t : State} :
    EndsAfter (k + 1) s t ↔ halted s = false ∧ EndsAfter k (stepOnce s) t := by
  simp only [EndsAfter, Nat.forall_lt_succ_left, stepN_zero, stepN_succ, and_assoc]

/-- A halted state is the end of its own run, after no step. -/
theorem endsAfter_iff_of_halted {k : Nat} {s t : State} (h : halted s = true) : EndsAfter k s t ↔ k = 0 ∧ s = t := by
  cases k with
  | zero => simp [endsAfter_zero_iff, h]
  | succ k => simp [endsAfter_succ_iff, h]

theorem hostRun_of_halted {s : State} (h : halted s = true) (ceiling : Nat) : hostRun ceiling s = .ended s := by
  cases ceiling <;> exact if_pos h

theorem hostRun_succ_of_not_halted {s : State} (h : halted s = false) (ceiling : Nat) :
    hostRun (ceiling + 1) s = hostRun ceiling (stepOnce s) :=
  if_neg (by simp [h])

theorem hostRun_zero_of_not_halted {s : State} (h : halted s = false) : hostRun 0 s = .stopped s :=
  if_neg (by simp [h])

/-- An end within `ceiling + 1` steps of a state that is not halted is one within `ceiling` steps of the next. -/
theorem exists_endsAfter_le_succ_iff {ceiling : Nat} {s t : State} (h : halted s = false) :
    (∃ k, k ≤ ceiling + 1 ∧ EndsAfter k s t) ↔ ∃ k, k ≤ ceiling ∧ EndsAfter k (stepOnce s) t := by
  constructor
  · rintro ⟨_ | k, hk, he⟩
    · cases h.symm.trans (endsAfter_zero_iff.mp he).1
    · exact ⟨k, Nat.le_of_succ_le_succ hk, (endsAfter_succ_iff.mp he).2⟩
  · rintro ⟨k, hk, he⟩
    exact ⟨k + 1, Nat.succ_le_succ hk, endsAfter_succ_iff.mpr ⟨h, he⟩⟩

theorem hostRun_eq_ended_iff (ceiling : Nat) (s t : State) :
    hostRun ceiling s = .ended t ↔ ∃ k, k ≤ ceiling ∧ EndsAfter k s t := by
  induction ceiling generalizing s with
  | zero =>
    cases hh : halted s with
    | true => simp [hostRun_of_halted hh, endsAfter_zero_iff, hh]
    | false => simp [hostRun_zero_of_not_halted hh, endsAfter_zero_iff, hh]
  | succ ceiling ih =>
    cases hh : halted s with
    | true => simp [hostRun_of_halted hh, endsAfter_iff_of_halted hh]
    | false => rw [hostRun_succ_of_not_halted hh, ih, exists_endsAfter_le_succ_iff hh]

theorem not_halted_up_to_succ_iff (ceiling : Nat) (s : State) :
    (∀ j, j ≤ ceiling + 1 → halted (stepN j s) = false) ↔
      halted s = false ∧ ∀ j, j ≤ ceiling → halted (stepN j (stepOnce s)) = false := by
  simp only [← Nat.lt_succ_iff, Nat.forall_lt_succ_left (n := ceiling + 1), stepN_zero, stepN_succ]

theorem hostRun_eq_stopped_iff (ceiling : Nat) (s t : State) :
    hostRun ceiling s = .stopped t ↔ (∀ j, j ≤ ceiling → halted (stepN j s) = false) ∧ stepN ceiling s = t := by
  induction ceiling generalizing s with
  | zero =>
    cases hh : halted s with
    | true => simp [hostRun_of_halted hh, hh]
    | false => simp [hostRun_zero_of_not_halted hh, hh]
  | succ ceiling ih =>
    rw [not_halted_up_to_succ_iff, stepN_succ]
    cases hh : halted s with
    | true => simp [hostRun_of_halted hh]
    | false => rw [hostRun_succ_of_not_halted hh, ih, eq_self, true_and]

/-- Settles O43: a halted state is answered at once, and any other leaves the rest of the ceiling to the next state. -/
theorem ceilingSeesEndOrStops : Obligations.CeilingSeesEndOrStops :=
  fun ceiling s t => ⟨hostRun_eq_ended_iff ceiling s t, hostRun_eq_stopped_iff ceiling s t⟩

theorem traceOf_toList_length_of_not_halted {s : State} (h : halted s = false) : (traceOf s).toList.length = 1 := by
  rcases fetch_cases s with ⟨hh, -, -⟩ | ⟨o, x, -, -, -, -, ht⟩
  · cases hh.symm.trans h
  · rw [ht]
    rfl

/-- Each step that does not halt leaves one trace record. -/
theorem traces_length_of_not_halted (k : Nat) {s : State} (h : ∀ j, j < k → halted (stepN j s) = false) :
    (traces k s).length = k := by
  induction k generalizing s with
  | zero => rfl
  | succ k ih =>
    rw [Nat.forall_lt_succ_left, stepN_zero] at h
    obtain ⟨h0, hrest⟩ := h
    rw [traces_succ, List.length_append, traceOf_toList_length_of_not_halted h0, ih hrest, Nat.add_comm]

/-- The end of a run is its first halted state, so it comes after one number of steps only. -/
theorem EndsAfter.unique {k m : Nat} {s t u : State} (ht : EndsAfter k s t) (hu : EndsAfter m s u) : m = k ∧ u = t := by
  obtain ⟨before_k, halted_k, rfl⟩ := ht
  obtain ⟨before_m, halted_m, rfl⟩ := hu
  obtain rfl : m = k := by
    rcases Nat.lt_trichotomy m k with hlt | heq | hgt
    · cases (before_k m hlt).symm.trans halted_m
    · exact heq
    · cases (before_m k hgt).symm.trans halted_k
  exact ⟨rfl, rfl⟩

/-- A run with a halted state ends, in the first one. -/
theorem exists_endsAfter_iff (s : State) : (∃ k t, EndsAfter k s t) ↔ ∃ k, halted (stepN k s) = true := by
  constructor
  · rintro ⟨k, -, -, hh, -⟩
    exact ⟨k, hh⟩
  · intro h
    exact ⟨Nat.find h, _, fun j hj => Bool.eq_false_of_not_eq_true (Nat.find_min h hj), Nat.find_spec h, rfl⟩

theorem halted_stepN_iff (k : Nat) (s : State) :
    halted (stepN k s) = true ↔ s.prog.length ≤ (stepN k s).pc.toNat + 1 := by
  rw [halted_iff_length_le, stepN_prog]

/-- Settles O44: the end is a halted state of the run, so it is kept, and the states before it are not halted. -/
theorem endOfRunIsTheFinalHaltedState : Obligations.EndOfRunIsTheFinalHaltedState := by
  refine ⟨fun s t k hend => ?_, fun s => ⟨?_, ?_⟩⟩
  · have unique {m : Nat} {u : State} := hend.unique (m := m) (u := u)
    obtain ⟨before, hh, rfl⟩ := hend
    refine ⟨(halted_iff_length_le _).mp hh, stepN_prog k s, step_of_halted hh, (halted_iff_traceOf_eq_none _).mp hh,
      stepN_out k s, traces_length_of_not_halted k before, fun m => ?_, fun j hj => ?_, fun m u => unique⟩
    · rw [stepN_add, stepN_of_halted hh]
    · obtain ⟨i, hi⟩ := exists_currentInstr_of_not_halted (before j hj)
      exact ⟨i, effect i _, hi, exec_eq_effect i _, (stepN_succ' j s).trans (stepOnce_of_some hi)⟩
  · refine forall_congr' fun k => ?_
    rw [← not_le, ← halted_stepN_iff, Bool.not_eq_true]
  · rw [exists_endsAfter_iff]
    exact exists_congr fun k => halted_stepN_iff k s

end Sys2Proof.Machine

/-! PROOFS of the family other, the host: which launches exist and what they start, resets, several cores, placed words; and the
step with the program as its parameter. -/

namespace Sys2Proof.Machine

/-! ### Launches (70_reset_and_hazards.md R180 R182 R183) -/

/-- What the host may present: elements of 3 bits, a program length and three register values below `2^W`. -/
def Admissible (p : List Nat) (a0 b0 c0 : Nat) : Prop :=
  (∀ e ∈ p, e < 8) ∧ p.length < 2 ^ Config.W ∧ a0 < 2 ^ Config.W ∧ b0 < 2 ^ Config.W ∧ c0 < 2 ^ Config.W

/-- The inputs as the core's elements and words. -/
def launchOf (p : List Nat) (a0 b0 c0 : Nat) : Launch :=
  { prog := p.map (BitVec.ofNat 3), a0 := BitVec.ofNat Config.W a0, b0 := BitVec.ofNat Config.W b0,
    c0 := BitVec.ofNat Config.W c0 }

/-- A launch exists exactly for admissible inputs, and is those inputs. -/
theorem launch?_eq_some_iff {p : List Nat} {a0 b0 c0 : Nat} {l : Launch} :
    launch? p a0 b0 c0 = some l ↔ Admissible p a0 b0 c0 ∧ launchOf p a0 b0 c0 = l := by
  simp only [launch?, Admissible, launchOf, Option.ite_none_right_eq_some, Option.some.injEq, Bool.and_eq_true,
    List.all_eq_true, decide_eq_true_iff, and_assoc]

theorem toNat_ofNat_of_lt {w n : Nat} (h : n < 2 ^ w) : (BitVec.ofNat w n).toNat = n := by
  rw [BitVec.toNat_ofNat, Nat.mod_eq_of_lt h]

/-- Elements below 8 are kept by their three bits. -/
theorem map_toNat_map_ofNat {p : List Nat} (h : ∀ e ∈ p, e < 8) : (p.map (BitVec.ofNat 3)).map BitVec.toNat = p := by
  rw [List.map_map]
  exact (List.map_congr_left fun e he => toNat_ofNat_of_lt (h e he)).trans (List.map_id p)

/-- Settles O40: `State.boot` field by field. -/
theorem resetSetsEveryField : Obligations.ResetSetsEveryField :=
  ⟨fun l => ⟨boot_a l, boot_b l, boot_c l, boot_pc l, boot_prog l, boot_out l⟩, rfl, rfl⟩

theorem storeInv_boot_launchOf {p : List Nat} (h : p.length < 2 ^ Config.W) (a0 b0 c0 : Nat) :
    StoreInv (State.boot (launchOf p a0 b0 c0)) := by
  rw [StoreInv, Memory.wf_iff, boot_prog, launchOf, List.length_map]
  exact h

/-- Settles O42: `launch?_eq_some_iff`, and a number that fits keeps its value. -/
theorem launchTakesExactlyAdmissibleInputs : Obligations.LaunchTakesExactlyAdmissibleInputs := by
  intro p a0 b0 c0
  refine ⟨⟨fun ⟨l, hl⟩ => (launch?_eq_some_iff.mp hl).1, fun h => ⟨_, launch?_eq_some_iff.mpr ⟨h, rfl⟩⟩⟩,
    fun l hl => ?_⟩
  obtain ⟨⟨he, hN, ha, hb, hc⟩, rfl⟩ := launch?_eq_some_iff.mp hl
  refine ⟨map_toNat_map_ofNat he, toNat_ofNat_of_lt ha, toNat_ofNat_of_lt hb, toNat_ofNat_of_lt hc, ?_,
    storeInv_boot_launchOf hN a0 b0 c0⟩
  rw [Launch.progLen, launchOf, List.length_map, toNat_ofNat_of_lt hN]

/-- Settles O34: an admissible launch starts both cores from the same numbers, and `natCoreOf_stepN` runs them together. -/
theorem runsRefineNatCore : Obligations.RunsRefineNatCore := by
  intro p a0 b0 c0 l hl k
  obtain ⟨⟨-, hN, ha, hb, hc⟩, rfl⟩ := launch?_eq_some_iff.mp hl
  rw [natCoreOf_stepN k (storeInv_boot_launchOf hN a0 b0 c0)]
  simp only [natCoreOf, State.boot, launchOf, toNat_ofNat_of_lt ha, toNat_ofNat_of_lt hb, toNat_ofNat_of_lt hc]
  rfl

/-! ### Events, on one core and on several (70_reset_and_hazards.md R181; 60_exceptions.md R170) -/

theorem hostEvents_cons (e : HostEvent) (es : List HostEvent) (s : State) :
    hostEvents (e :: es) s = hostEvents es (hostEvent e s) := rfl

theorem hostEvents_append (before after : List HostEvent) (s : State) :
    hostEvents (before ++ after) s = hostEvents after (hostEvents before s) := List.foldl_append

/-- Settles O41: the state after a reset is the launch's, whatever state the reset meets. -/
theorem resetDiscardsEverythingBefore : Obligations.ResetDiscardsEverythingBefore := by
  intro before after l s
  rw [hostEvents_append, hostEvents_cons, hostEvent]

/-- Events that are all steps keep the program. -/
theorem hostEvents_prog {es : List HostEvent} (h : ∀ e ∈ es, e = .step) (s : State) : (hostEvents es s).prog = s.prog := by
  induction es generalizing s with
  | nil => rfl
  | cons e es ih =>
    obtain ⟨rfl, hes⟩ := List.forall_mem_cons.mp h
    rw [hostEvents_cons, ih hes, hostEvent, stepOnce_prog]

theorem bank_run_cons (e : Nat × HostEvent) (sched : List (Nat × HostEvent)) (b : Bank) :
    Bank.run (e :: sched) b = Bank.run sched (Bank.event e.1 e.2 b) := rfl

theorem bank_event_getElem? (i : Nat) (e : HostEvent) (b : Bank) (j : Nat) :
    (Bank.event i e b)[j]? = if i = j then b[j]?.map (hostEvent e) else b[j]? := by
  rw [Bank.event, List.getElem?_modify]
  split <;> simp

theorem eventsFor_cons (j : Nat) (e : Nat × HostEvent) (sched : List (Nat × HostEvent)) :
    eventsFor j (e :: sched) = if e.1 = j then e.2 :: eventsFor j sched else eventsFor j sched := by
  rw [eventsFor, List.filterMap_cons]
  split_ifs <;> rfl

theorem bank_run_getElem? (sched : List (Nat × HostEvent)) (b : Bank) (j : Nat) :
    (Bank.run sched b)[j]? = b[j]?.map (hostEvents (eventsFor j sched)) := by
  induction sched generalizing b with
  | nil => exact Option.map_id_apply.symm
  | cons e sched ih =>
    rw [bank_run_cons, ih, bank_event_getElem?, eventsFor_cons]
    split
    · rw [Option.map_map]
      rfl
    · rfl

theorem mem_eventsFor {j : Nat} {sched : List (Nat × HostEvent)} {e : HostEvent} (h : e ∈ eventsFor j sched) :
    (j, e) ∈ sched := by
  simp only [eventsFor, List.mem_filterMap, Option.ite_none_right_eq_some, Option.some.injEq] at h
  obtain ⟨⟨_, _⟩, hmem, rfl, rfl⟩ := h
  exact hmem

/-- Settles O48: an event at core `j` is seen at index `j` alone; and steps keep the one program all cores start with. -/
theorem eachCoreRunsAsIfAlone : Obligations.EachCoreRunsAsIfAlone := by
  refine ⟨bank_run_getElem?, fun p inits => ⟨fun j a0 b0 c0 h => ?_, fun sched hsteps s hs => ?_⟩⟩
  · rw [Bank.launch, List.getElem?_map, h]
    rfl
  · obtain ⟨j, hj⟩ := List.mem_iff_getElem?.mp hs
    rw [bank_run_getElem?, Bank.launch, List.getElem?_map, Option.map_map, Option.map_eq_some_iff] at hj
    obtain ⟨r, -, rfl⟩ := hj
    exact hostEvents_prog (fun e he => hsteps (j, e) (mem_eventsFor he)) _

/-! ### A word placed at the program counter (30_encoding.md R61; 42_control.md R120) -/

/-- The pair placed at the program counter is the instruction fetched. -/
theorem currentInstr_withFetchWord_sixBit (s : State) (o x : Element) :
    currentInstr (s.withFetchWord 8 (sixBit o x).toNat) = some (decodePair o x) := by
  refine currentInstr_of_decode (rest := s.prog.drop (s.pc.toNat + 2)) ?_
  rw [State.withFetchWord, Memory.drop_place, tableElements_sixBit (by decide)]
  rfl

/-- Settles O49: the word is a pair's view, the fetch finds the pair, and the laws of `place` say the rest. -/
theorem placedWordIsExecutedNext : Obligations.PlacedWordIsExecutedNext := by
  intro s w hw
  obtain ⟨o, x, hox⟩ := exists_sixBit_eq (BitVec.ofNat 6 w)
  obtain rfl : (sixBit o x).toNat = w := hox ▸ toNat_ofNat_of_lt hw
  exact ⟨decodePair o x, decodeTableWord_sixBit (by decide) o x, congrArg BitVec.toNat (encodeSixBit_decodePair o x),
    step_of_some (currentInstr_withFetchWord_sixBit s o x), fun k hk hout => Memory.element?_place_of_outside hk hout,
    fun hs hpc => Memory.place_wf hs hpc, rfl⟩

/-! ### The program as the step's parameter (20_memory.md R49) -/

/-- What the registers hold after an instruction depends on the registers alone. -/
theorem regAfter_congr {i : Instr} {s t : State} (h : ∀ r, readReg r s = readReg r t) (r : Reg) :
    regAfter i s r = regAfter i t r := by
  have agree : AgreeOnReads i s t := fun q _ => h q
  rw [regAfter, regAfter, agree.resultOf_eq, h r]

/-- An instruction's effect with a program is its effect with no program, joined with the program. -/
theorem effect_withProgram (i : Instr) (p : Memory) (x : ArchState) :
    effect i (withProgram p x) = withProgram p (archOf (effect i (withProgram [] x))) := by
  have same_regs (r : Reg) : readReg r (withProgram p x) = readReg r (withProgram [] x) := by cases r <;> rfl
  have agree : AgreeOnReads i (withProgram p x) (withProgram [] x) := fun r _ => same_regs r
  simp only [effect, regAfter_congr same_regs, agree.nextPc_eq rfl, agree.appendedBy_eq]
  rfl

theorem execArch_eq (i : Instr) (x : ArchState) : execArch i x = .next (archOf (effect i (withProgram [] x))) := by
  simp only [execArch, exec_eq_effect]

theorem stepOf_eq (p : Memory) (x : ArchState) : stepOf p x = .next (archOf (stepOnce (withProgram p x))) := by
  rcases stepOf_cases p x with ⟨hc, h⟩ | ⟨i, hc, h⟩
  · rw [h, stepOnce_of_none hc, archOf_withProgram]
  · rw [h, stepOnce_of_some hc, execArch_eq, effect_withProgram i p, archOf_withProgram]

theorem withProgram_archOf_of_prog {p : Memory} {s : State} (h : s.prog = p) : withProgram p (archOf s) = s := by
  rw [← h, withProgram_archOf]

theorem withProgram_archOf_stepOnce (p : Memory) (x : ArchState) :
    withProgram p (archOf (stepOnce (withProgram p x))) = stepOnce (withProgram p x) :=
  withProgram_archOf_of_prog (stepOnce_prog _)

theorem runOf_eq (k : Nat) (p : Memory) (x : ArchState) : runOf p k x = .next (archOf (stepN k (withProgram p x))) := by
  induction k generalizing x with
  | zero => rfl
  | succ k ih =>
    rw [runOf_succ (stepOf_eq p x), ih, withProgram_archOf_stepOnce, stepN_succ]

/-- Settles O50: `effect_withProgram` for an instruction, hence the step and the run; of the events only a reset changes the
program. -/
theorem stepTakesProgramAsParameter : Obligations.StepTakesProgramAsParameter := by
  have step_eq (p : Memory) (x : ArchState) :
      ∃ y, stepOf p x = .next y ∧ step (withProgram p x) = .next (withProgram p y) :=
    ⟨_, stepOf_eq p x, by rw [step_eq_next_stepOnce, withProgram_archOf_stepOnce]⟩
  refine ⟨fun s => step_eq s.prog (archOf s), step_eq, fun i p x => ?_, fun k p x => ?_, fun e s h => ?_⟩
  · exact ⟨_, execArch_eq i x, by rw [exec_eq_effect, effect_withProgram]⟩
  · exact ⟨_, runOf_eq k p x, (withProgram_archOf_of_prog (stepN_prog k _)).symm⟩
  · cases e with
    | reset l => exact ⟨l, rfl, boot_prog l⟩
    | step => exact absurd (stepOnce_prog s) h

end Sys2Proof.Machine
